-- ==== Sys2Proof/Word.lean ====
section
/-! DEFINITION. The widths of the block: bytes, 16-bit values and 32-bit bus words (spec 00_scope.md R11). -/

namespace Sys2Proof

/-- One byte of a frame or of BUF. -/
abbrev Byte := BitVec 8

/-- A 16-bit value: a sequence number, a checksum, a bus address. -/
abbrev Half := BitVec 16

/-- A 32-bit bus datum, a register as the bus sees it, or a command word. -/
abbrev Word := BitVec 32

end Sys2Proof
end

