-- ==== Sys2Proof/Config.lean ====
section
/-! DEFINITION. What is fixed by the source (R9), what an implementation chooses (R10) and the free values
the spec calls draws (R10 LATENCY, R44, R161). -/

namespace Sys2Proof

/-! The parameters the source fixes (00_scope.md R9). UNVERIFIED against the repository's code, as the spec
itself says (R9, D40): log 12. -/

/-- The only protocol version, the VER byte of every encoded frame (R2, R9, R75). -/
def Config.protocolVersion : Byte := 0x01#8
/-- Bytes of a header-only frame (R9). -/
def Config.headerLen : Nat := 10
/-- Bytes of a DATA frame (R9). -/
def Config.dataLen : Nat := 30
/-- The CRC register before the first byte (R9, R95). -/
def Config.crcInit : Half := 0xFFFF#16
/-- The reflected CRC polynomial (R9, R95). -/
def Config.crcPolyR : Half := 0xA001#16
/-- Half of the sequence ring (R9, R127). -/
def Config.seqHalf : Nat := 32768
/-- Offset of the checksum field in a frame (R9). -/
def Config.cksumOff : Nat := 6
/-- Revision of the register map, CAP[31:24] (R27). -/
def Config.mapRev : Byte := 0x01#8

/-- The parameters the source leaves open (00_scope.md R10). The model takes them as an argument: the field
`params` of the machine's state, which no step changes (log 1). -/
structure Params where
  /-- Capacity of the frame buffer in bytes. -/
  bufBytes : Nat
  /-- Message-type byte of DATA. -/
  mtData : Byte
  /-- Message-type byte of ACK. -/
  mtAck : Byte
  /-- Message-type byte of HEARTBEAT. -/
  mtHeartbeat : Byte
  /-- Masks of the four named flags in the 16-bit flags field; no rule of the block reads them (R10, R41). -/
  flagLowBattery : Half
  flagSos : Half
  flagMoving : Half
  flagIgnitionOn : Half
  deriving DecidableEq, Repr

/-- The defaults of R10. -/
def Params.default : Params where
  bufBytes := 64
  mtData := 0x01#8
  mtAck := 0x02#8
  mtHeartbeat := 0x03#8
  flagLowBattery := 0x0001#16
  flagSos := 0x0002#16
  flagMoving := 0x0004#16
  flagIgnitionOn := 0x0008#16

/-! Free values. They have no body, so nothing can be proved of one, and a claim holds whatever it is. Each is
applied to the number of the draw (the state's `draws`), so that every draw is a fresh one. -/

/-- LATENCY - 1 of a command issue (R10, R160: any finite number of engine steps, at least 1). Log 3. -/
opaque Config.latencyDraw : Nat → Nat
/-- Byte `i` of BUF after the reset whose draw is `seed` (R44, 93 I3). Log 4. -/
opaque Config.bufDraw (seed i : Nat) : Byte
/-- The datum of a read of the write set of the command in flight (R161, 93 I4). Log 5. -/
opaque Config.readDraw : Nat → Word

end Sys2Proof
end

