-- ==== Sys2Proof/Syntax.lean ====
section
/-! DEFINITION. The block's instructions: the commands of spec/opcode_table.json (30_encoding.md R84, R85). -/

namespace Sys2Proof

/-- A command. Every operand is a block register or BUF, so only CRC carries a field (R84). -/
inductive Instr where
  /-- CRC, and with `z` set CRC.Z, the checksum-field zero mask (R86, R97). -/
  | crc (z : Bool)
  /-- ENC_DATA (R106). -/
  | encData
  /-- ENC_ACK (R107). -/
  | encAck
  /-- ENC_HB (R108). -/
  | encHb
  /-- DECODE (R110). -/
  | decode
  /-- CLASSIFY (R126). -/
  | classify
  deriving DecidableEq, Repr

end Sys2Proof
end

