-- ==== Sys2Proof/WellFormed.lean ====
section
/-! DEFINITION. Well-formedness: of an instruction (nothing to check: its one field is a bit) and of the
implementation parameters (00_scope.md R10). -/

namespace Sys2Proof

/-- Every term of `Instr` is a legal command: the only field is the bit Z of CRC, and both its values are legal
(30_encoding.md R85, R88). -/
def Instr.wf : Instr → Bool
  | .crc _ => true
  | .encData => true
  | .encAck => true
  | .encHb => true
  | .decode => true
  | .classify => true

/-- A mask with exactly one bit set. -/
def singleBit (m : Half) : Bool := m != 0#16 && (m &&& (m - 1#16)) == 0#16

/-- BUF_BYTES is a multiple of 4 with 32 ≤ BUF_BYTES ≤ 32768 (R10). -/
def Params.bufBytesOk (p : Params) : Bool :=
  p.bufBytes % 4 == 0 && (decide (32 ≤ p.bufBytes) && decide (p.bufBytes ≤ 32768))

/-- The three message types are pairwise distinct (R10, R76). -/
def Params.typesOk (p : Params) : Bool :=
  p.mtData != p.mtAck && (p.mtData != p.mtHeartbeat && p.mtAck != p.mtHeartbeat)

/-- The four flag masks are single bits (R10). -/
def Params.flagsSingle (p : Params) : Bool :=
  singleBit p.flagLowBattery && (singleBit p.flagSos && (singleBit p.flagMoving && singleBit p.flagIgnitionOn))

/-- The four flag masks are pairwise distinct (R10). -/
def Params.flagsDistinct (p : Params) : Bool :=
  decide ([p.flagLowBattery, p.flagSos, p.flagMoving, p.flagIgnitionOn].Nodup)

/-- The constraints R10 puts on the parameters. -/
def Params.wf (p : Params) : Bool :=
  p.bufBytesOk && (p.typesOk && (p.flagsSingle && p.flagsDistinct))

end Sys2Proof
end

