-- ==== Sys2Proof/Decode.lean ====
section
/-! DEFINITION. The command word (30_encoding.md R84 to R88): its decoder, total on every 32-bit word, and its
encoder, written from the same table. -/

namespace Sys2Proof

/-- Why a command word is illegal (R87). Each of them is reported to the host as ILLEGAL_CMD (R138). -/
inductive Illegal where
  /-- One of bits [31:9] is 1. -/
  | reservedBits
  /-- OP is 0x00 or in 0x07..0xFF. -/
  | badOpcode
  /-- Z = 1 with an OP other than CRC. -/
  | zeroMaskNotCrc
  deriving DecidableEq, Repr

/-- Field OP, bits [7:0] (R84). -/
def opField (w : Word) : Byte := w.extractLsb' 0 8
/-- Field Z, bit [8] (R84). -/
def zField (w : Word) : Bool := w.getLsbD 8
/-- The reserved field, bits [31:9] (R84). -/
def reservedField (w : Word) : BitVec 23 := w.extractLsb' 9 23

/-- The opcode map, OP column (R85); the Z bit is given to CRC. -/
def instrOfOp (op : Byte) (z : Bool) : Except Illegal Instr :=
  match op.toNat with
  | 0x01 => .ok (.crc z)
  | 0x02 => if z then .error .zeroMaskNotCrc else .ok .encData
  | 0x03 => if z then .error .zeroMaskNotCrc else .ok .encAck
  | 0x04 => if z then .error .zeroMaskNotCrc else .ok .encHb
  | 0x05 => if z then .error .zeroMaskNotCrc else .ok .decode
  | 0x06 => if z then .error .zeroMaskNotCrc else .ok .classify
  | _ => .error .badOpcode

/-- The command a word selects, or why it is illegal (R84, R85, R87). -/
def decodeWord (w : Word) : Except Illegal Instr :=
  if reservedField w ≠ 0#23 then .error .reservedBits else instrOfOp (opField w) (zField w)

/-- The opcode of a command (R85). -/
def Instr.op : Instr → Byte
  | .crc _ => 0x01#8
  | .encData => 0x02#8
  | .encAck => 0x03#8
  | .encHb => 0x04#8
  | .decode => 0x05#8
  | .classify => 0x06#8

/-- The Z bit of a command (R84: 0 for every opcode but CRC). -/
def Instr.z : Instr → Bool
  | .crc z => z
  | .encData => false
  | .encAck => false
  | .encHb => false
  | .decode => false
  | .classify => false

/-- The command word of a command: {0, Z, OP} (R84, R85). -/
def encode (i : Instr) : Word := 0#23 ++ BitVec.ofBool i.z ++ i.op

/-- The host's question about a row of spec/opcode_table.json: the instruction the decoder reads from the word
whose low `nbits` bits are those of `w` and whose other bits are 0. A command is one 32-bit word. -/
def decodeTableWord (nbits w : Nat) : Option Instr :=
  (decodeWord (BitVec.ofNat 32 (w % 2 ^ nbits))).toOption

end Sys2Proof
end

