-- ==== Sys2Proof/Machine/State.lean ====
section
/-! DEFINITION. The state of the block (10_state.md), and the model's own fields beside it: the parameters, the
coming events, the last bus response and the bookkeeping of draws. Plain data throughout. -/

namespace Sys2Proof.Machine

/-- STATUS.RESULT (R25). The codes the spec reserves and says are never produced are not representable (log 8). -/
inductive ResultCode where
  /-- 0x0: success. -/
  | ok
  /-- 0x1: DECODE, LEN < 10, or type DATA with LEN < 30. -/
  | tooShort
  /-- 0x2: DECODE, recomputed and embedded checksum differ. -/
  | badChecksum
  /-- 0x3: DECODE, version byte other than 0x01. -/
  | unsupportedVersion
  /-- 0x8: a command word that is illegal. -/
  | illegalCmd
  /-- 0x9: CRC or DECODE issued with LEN > BUF_BYTES. -/
  | lenRange
  deriving DecidableEq, Repr

/-- The names of the operand, result and field registers (R22, R33): every register but CTRL, STATUS, CMD, CAP. -/
inductive DataReg where
  | len | crcOut | seqLast | seqIn | seqRes | seqLoss
  | fldVer | fldType | fldDevid | fldSeq | fldCsum | fldFlags
  | fldLat | fldLon | fldAlt | fldTs | fldSpeed | fldHeading | fldBatt | fldStatus
  deriving DecidableEq, Repr

/-- The names of the registers of the table of R22. -/
inductive Reg where
  | ctrl | status | cmd | cap
  | data (r : DataReg)
  deriving DecidableEq, Repr

/-- What a mapped bus address names (R52): a register, or the BUF window word `BUF[4k..4k+3]` (R54). -/
inductive Target where
  | reg (r : Reg)
  | window (k : Nat)
  deriving DecidableEq, Repr

/-- The operand and result registers (R28 to R32) and the field register file (R33 to R37), each with exactly its
implemented bits (R22). -/
structure DataRegs where
  len : BitVec 16
  crcOut : BitVec 16
  seqLast : BitVec 16
  seqIn : BitVec 16
  /-- {FRESH, DIST} (R31). -/
  seqRes : BitVec 17
  seqLoss : BitVec 16
  fldVer : BitVec 8
  fldType : BitVec 8
  fldDevid : BitVec 16
  fldSeq : BitVec 16
  fldCsum : BitVec 16
  fldFlags : BitVec 16
  /-- Raw two's-complement pattern (R33). -/
  fldLat : BitVec 32
  /-- Raw two's-complement pattern (R33). -/
  fldLon : BitVec 32
  fldAlt : BitVec 16
  fldTs : BitVec 32
  fldSpeed : BitVec 16
  fldHeading : BitVec 16
  fldBatt : BitVec 8
  fldStatus : BitVec 8
  deriving DecidableEq, Repr

/-- The written bytes of BUF (R40): index and byte, indexes strictly rising. An index not listed has not been
written since the last reset: it has no value of its own (log 4), and the block reads it as a draw. -/
abbrev Memory := List Host.Cell

/-- One write of a command's pending result (R43): a register takes a value, or a BUF byte takes a byte. -/
inductive EngWrite where
  | reg (r : DataReg) (v : Word)
  | buf (i : Nat) (b : Byte)
  deriving DecidableEq, Repr

/-- What a command's rule gives when applied to the state at issue (R14): its writes and its result code. -/
structure CmdResult where
  writes : List EngWrite
  code : ResultCode
  deriving DecidableEq, Repr

/-- The pending result (R43): the command, its writes and its result code, all fixed at issue. -/
structure Pending where
  instr : Instr
  res : CmdResult
  deriving DecidableEq, Repr

/-- The engine state ENG (R21). While BUSY it holds the pending result and the remaining latency (R43). -/
inductive Eng where
  | idle
  | busy (p : Pending) (remaining : Nat)
  deriving DecidableEq, Repr

/-- The response lines of a bus access (R51). -/
inductive Resp where
  | okay | error
  deriving DecidableEq, Repr

/-- What a host access returns (R51): a read its response and datum, a write its response. -/
inductive BusResponse where
  | read (r : Resp) (d : Word)
  | write (r : Resp)
  deriving DecidableEq, Repr

/-- What happens next to the block, from outside or from its engine (R20, R51, R61, R155). Log 2. -/
inductive Event where
  /-- The host access `Read(a)`. -/
  | read (a : Half)
  /-- The host access `Write(a, d)`. -/
  | write (a : Half) (d : Word)
  /-- One engine step. -/
  | engine
  /-- The hardware reset input. -/
  | hwReset
  /-- The host's WAIT loop (R91): reads STATUS until its bit 0 is 0. Log 9. -/
  | wait
  deriving DecidableEq, Repr

/-- The state of the block, R20, and after it the model's own fields. -/
structure State where
  /-- CTRL.IE (R23). -/
  ie : Bool
  /-- STATUS.DONE (R24). -/
  done : Bool
  /-- STATUS.WERR (R24). -/
  werr : Bool
  /-- STATUS.RESULT (R25). -/
  result : ResultCode
  /-- STATUS.LAST_OP (R24). -/
  lastOp : Byte
  /-- CMD read-back (R26). -/
  cmd : Word
  /-- The operand, result and field registers (R28 to R37). -/
  regs : DataRegs
  /-- The frame buffer (R40). -/
  buf : Memory
  /-- The engine with its hidden pending result and remaining latency (R21, R43). -/
  eng : Eng
  /-- The parameters of R10: arguments of the model, changed by no step (log 1). -/
  params : Params
  /-- The draw that stands for BUF's contents since the last reset (log 4). -/
  bufSeed : Nat
  /-- The number of the next draw (logs 3, 4, 5). -/
  draws : Nat
  /-- LATENCY - 1 of coming commands, where the environment has drawn it already (log 3). -/
  latencies : List Nat
  /-- The coming events, the next one first (log 2). -/
  inputs : List Event
  /-- The response of the last host access (log 6). -/
  response : Option BusResponse
  deriving DecidableEq, Repr

/-- Reasons for the machine to stop with a fault. There is none: the block has no trap and no fault state, and
after every error it goes on (R135), so no meaning and no step of this model faults (log 11). -/
inductive Fault
  deriving DecidableEq, Repr

/-- Reasons for the model to give an instruction no meaning. -/
inductive Refusal where
  /-- An instruction that has no meaning yet, refused by `exec`'s arm (safe: the model stops). No arm of this
  model raises it. -/
  | notModelled (mnemonic : String)
  deriving DecidableEq, Repr

/-- What a step, or a command, answers. -/
abbrev Outcome := Host.Outcome State Fault Refusal

/-- Every operand, result and field register is 0 after reset (R44). -/
def DataRegs.zero : DataRegs where
  len := 0#16
  crcOut := 0#16
  seqLast := 0#16
  seqIn := 0#16
  seqRes := 0#17
  seqLoss := 0#16
  fldVer := 0#8
  fldType := 0#8
  fldDevid := 0#16
  fldSeq := 0#16
  fldCsum := 0#16
  fldFlags := 0#16
  fldLat := 0#32
  fldLon := 0#32
  fldAlt := 0#16
  fldTs := 0#32
  fldSpeed := 0#16
  fldHeading := 0#16
  fldBatt := 0#8
  fldStatus := 0#8

/-- The block right after a reset (R44): ENG idle, every register 0 (CAP is computed, R27), BUF unspecified. The
model's own fields: the defaults of R10 (log 1), no event and no response yet (logs 2, 6), draw 0 taken for BUF
(log 4). -/
def State.reset : State where
  ie := false
  done := false
  werr := false
  result := .ok
  lastOp := 0#8
  cmd := 0#32
  regs := DataRegs.zero
  buf := []
  eng := .idle
  params := Params.default
  bufSeed := 0
  draws := 1
  latencies := []
  inputs := []
  response := none

end Sys2Proof.Machine
end

