-- ==== Sys2Proof/Machine/Ops.lean ====
section
/-! DEFINITION. The operations every meaning is built from: BUF as memory, the register file, the writes of a
pending result, and the block's three ways of ending or refusing work: completion (R137), rejection (R138) and the
ignored write (R139), with acceptance (R160), the engine step and reset (R156) beside them. -/

namespace Sys2Proof.Machine

/-! ## BUF as memory -/

/-- The byte written last at `a`, if any since the last reset. -/
def Memory.get? : Memory → Nat → Option Byte
  | [], _ => none
  | (k, v) :: m, a => if a = k then some v else Memory.get? m a

/-- `BUF[a] <- b`, in canonical form. -/
def Memory.set : Memory → Nat → Byte → Memory
  | [], a, b => [(a, b)]
  | (k, v) :: m, a, b =>
    if a < k then (a, b) :: (k, v) :: m
    else if a = k then (a, b) :: m
    else (k, v) :: Memory.set m a b

/-- `BUF[a], BUF[a+1], ... <- s[0], s[1], ...`. -/
def Memory.setBytes : Memory → Nat → List Byte → Memory
  | m, _, [] => m
  | m, a, b :: s => Memory.setBytes (Memory.set m a b) (a + 1) s

/-- The canonical form: indexes strictly rising. An unlisted byte has no value (log 4), so no entry equals what an
unlisted one reads as, and equal memories are equal lists. -/
abbrev Memory.wf (m : Memory) : Prop := m.Pairwise (fun c d => c.1 < d.1)

/-- Every listed byte lies in BUF (R40). -/
abbrev Memory.within (m : Memory) (bufBytes : Nat) : Prop := ∀ c ∈ m, c.1 < bufBytes

/-! ## The register file -/

/-- The value of a register, zero-extended to a bus word (R38). -/
def DataRegs.get (g : DataRegs) : DataReg → Word
  | .len => g.len.setWidth 32
  | .crcOut => g.crcOut.setWidth 32
  | .seqLast => g.seqLast.setWidth 32
  | .seqIn => g.seqIn.setWidth 32
  | .seqRes => g.seqRes.setWidth 32
  | .seqLoss => g.seqLoss.setWidth 32
  | .fldVer => g.fldVer.setWidth 32
  | .fldType => g.fldType.setWidth 32
  | .fldDevid => g.fldDevid.setWidth 32
  | .fldSeq => g.fldSeq.setWidth 32
  | .fldCsum => g.fldCsum.setWidth 32
  | .fldFlags => g.fldFlags.setWidth 32
  | .fldLat => g.fldLat
  | .fldLon => g.fldLon
  | .fldAlt => g.fldAlt.setWidth 32
  | .fldTs => g.fldTs
  | .fldSpeed => g.fldSpeed.setWidth 32
  | .fldHeading => g.fldHeading.setWidth 32
  | .fldBatt => g.fldBatt.setWidth 32
  | .fldStatus => g.fldStatus.setWidth 32

/-- `reg[NAME] <- v`, truncated to the register's declared width (R13, R38). -/
def DataRegs.set (g : DataRegs) (r : DataReg) (v : Word) : DataRegs :=
  match r with
  | .len => { g with len := v.setWidth 16 }
  | .crcOut => { g with crcOut := v.setWidth 16 }
  | .seqLast => { g with seqLast := v.setWidth 16 }
  | .seqIn => { g with seqIn := v.setWidth 16 }
  | .seqRes => { g with seqRes := v.setWidth 17 }
  | .seqLoss => { g with seqLoss := v.setWidth 16 }
  | .fldVer => { g with fldVer := v.setWidth 8 }
  | .fldType => { g with fldType := v.setWidth 8 }
  | .fldDevid => { g with fldDevid := v.setWidth 16 }
  | .fldSeq => { g with fldSeq := v.setWidth 16 }
  | .fldCsum => { g with fldCsum := v.setWidth 16 }
  | .fldFlags => { g with fldFlags := v.setWidth 16 }
  | .fldLat => { g with fldLat := v }
  | .fldLon => { g with fldLon := v }
  | .fldAlt => { g with fldAlt := v.setWidth 16 }
  | .fldTs => { g with fldTs := v }
  | .fldSpeed => { g with fldSpeed := v.setWidth 16 }
  | .fldHeading => { g with fldHeading := v.setWidth 16 }
  | .fldBatt => { g with fldBatt := v.setWidth 8 }
  | .fldStatus => { g with fldStatus := v.setWidth 8 }

/-- The implemented bits of a register, counted from bit 0 (R22). -/
def DataReg.width : DataReg → Nat
  | .seqRes => 17
  | .fldVer | .fldType | .fldBatt | .fldStatus => 8
  | .fldLat | .fldLon | .fldTs => 32
  | .len | .crcOut | .seqLast | .seqIn | .seqLoss => 16
  | .fldDevid | .fldSeq | .fldCsum | .fldFlags | .fldAlt | .fldSpeed | .fldHeading => 16

/-- The access column of R22: `true` for RW, `false` for RO. -/
def DataReg.hostWritable : DataReg → Bool
  | .crcOut | .seqRes | .seqLoss | .fldVer | .fldType | .fldCsum => false
  | .len | .seqLast | .seqIn | .fldDevid | .fldSeq | .fldFlags => true
  | .fldLat | .fldLon | .fldAlt | .fldTs | .fldSpeed | .fldHeading | .fldBatt | .fldStatus => true

/-- `reg[NAME] <- v` on the block (R13). -/
def State.setReg (s : State) (r : DataReg) (v : Word) : State := { s with regs := s.regs.set r v }

/-- `BUF[i] <- b` on the block. -/
def State.setBuf (s : State) (i : Nat) (b : Byte) : State := { s with buf := s.buf.set i b }

/-! ## The engine -/

/-- STATUS.BUSY: 1 exactly while ENG = BUSY (R21, R24). -/
def State.busy (s : State) : Bool :=
  match s.eng with
  | .idle => false
  | .busy _ _ => true

/-- The remaining latency of the command in flight (R43); 0 when there is none. -/
def State.remaining (s : State) : Nat :=
  match s.eng with
  | .idle => 0
  | .busy _ n => n

/-- One write of a pending result. -/
def State.applyWrite (s : State) : EngWrite → State
  | .reg r v => s.setReg r v
  | .buf i b => s.setBuf i b

/-- Every write of a pending result. No command writes a register or a byte twice, so the order does not show
(log 7). -/
def State.applyWrites (s : State) (ws : List EngWrite) : State := ws.foldl State.applyWrite s

/-- The writes `BUF[off], BUF[off+1], ... <- s[0], s[1], ...`. -/
def bufWrites : Nat → List Byte → List EngWrite
  | _, [] => []
  | off, b :: s => .buf off b :: bufWrites (off + 1) s

/-- LATENCY - 1 of the command issued next: as the environment has drawn it, else a free value (R10, R160; log 3). -/
def State.nextLatency (s : State) : Nat :=
  match s.latencies with
  | [] => Config.latencyDraw s.draws
  | n :: _ => n

/-- Acceptance of a command whose rule, applied to the state now, gives `r` (R160): CMD read-back, DONE cleared, BUSY
set, the pending result held with a latency of at least 1. -/
def State.accept (s : State) (i : Instr) (r : CmdResult) : State :=
  { s with
    cmd := encode i
    done := false
    eng := .busy ⟨i, r⟩ (s.nextLatency + 1)
    draws := s.draws + 1
    latencies := s.latencies.tail }

/-- `raise CmdError(code)`: the rejection at issue of the word `w` (R138). -/
def State.reject (s : State) (w : Word) (code : ResultCode) : State :=
  { s with cmd := w, result := code, lastOp := opField w, done := true }

/-- A host write ignored because ENG = BUSY (R139): WERR is set and nothing else happens. -/
def State.ignoreWrite (s : State) : State := { s with werr := true }

/-- `complete(code)` (R137), the block's equivalent of trap entry (R144): one atomic event that applies every write
of the pending result, reports the code and the opcode, clears BUSY, sets DONE and idles the engine. -/
def State.complete (s : State) : State :=
  match s.eng with
  | .idle => s
  | .busy p _ =>
    { s.applyWrites p.res.writes with
      result := p.res.code
      lastOp := opField (encode p.instr)
      done := true
      eng := .idle }

/-- The acknowledgement of a completion (R145): a write of `d` to STATUS while idle clears DONE if bit 1 is 1 and
WERR if bit 2 is 1; every other bit of the write is ignored (R24). -/
def State.clearFlags (s : State) (d : Word) : State :=
  { s with done := s.done && !d.getLsbD 1, werr := s.werr && !d.getLsbD 2 }

/-- One engine step (R160): the remaining latency falls, and the command completes when it runs out. An idle engine
does nothing (log 2). -/
def State.engineTick (s : State) : State :=
  match s.eng with
  | .idle => s
  | .busy p (n + 2) => { s with eng := .busy p (n + 1) }
  | .busy _ _ => s.complete

/-- `n` engine steps in a row. -/
def State.engineTicks : Nat → State → State
  | 0, s => s
  | n + 1, s => State.engineTicks n s.engineTick

/-- The engine steps of the command in flight, all of them: its completion, `LATENCY` engine steps after its issue. -/
def State.finish (s : State) : State := State.engineTicks s.remaining s

/-! ## Reset -/

/-- A reset (R156, R157): every piece of state takes its value of R44 and BUF becomes a new draw, so the command in
flight is gone with no completion. The model's own fields other than the draws stay: the parameters (CAP is not
affected, R44), the coming events, the drawn latencies and the last response (log 10). -/
def State.resetBlock (s : State) : State :=
  { State.reset with
    params := s.params
    bufSeed := s.draws
    draws := s.draws + 1
    latencies := s.latencies
    inputs := s.inputs
    response := s.response }

/-- A write of `d` to CTRL, taken in any engine state (R23): SRST = 1 resets the block and the IE value written in
the same word is lost; otherwise IE takes bit 1. -/
def State.writeCtrl (s : State) (d : Word) : State :=
  if d.getLsbD 0 then s.resetBlock else { s with ie := d.getLsbD 1 }

/-! ## Issue -/

/-- The commands whose issue checks LEN (R138: OP 0x01 and 0x05). -/
def Instr.checksLen : Instr → Bool
  | .crc _ => true
  | .encData => false
  | .encAck => false
  | .encHb => false
  | .decode => true
  | .classify => false

/-- The write of command `i`'s word to CMD, in any engine state, where `r` is what the command's rule gives in the
state at issue: checks 3, 5 and 6 of R140. -/
def issue (i : Instr) (r : CmdResult) (s : State) : Outcome :=
  if s.busy then .next s.ignoreWrite
  else if Instr.checksLen i && decide (s.params.bufBytes < s.regs.len.toNat) then
    .next (s.reject (encode i) .lenRange)
  else .next (s.accept i r)

/-! ## Events -/

/-- The block as the access (or event) at the head of `inputs` finds it: that event is taken off the list. -/
def State.popInput (s : State) : State := { s with inputs := s.inputs.tail }

/-- The bus response of an access (R51). -/
def State.respond (s : State) (r : BusResponse) : State := { s with response := some r }

end Sys2Proof.Machine
end

