-- ==== Sys2Proof/Machine/Operands.lean ====
section
/-! DEFINITION. How operands are read: the byte notation of 00_scope.md R12, BUF bytes, `BufSeq`, `MemRead` (R13),
the address map (20_memory.md R52) and the write sets of the commands (30_encoding.md R85, R161). -/

namespace Sys2Proof.Machine

/-! ## Byte sequences (R12) -/

/-- `be_n(v)`: the n-byte big-endian sequence of `v mod 2^(8n)`, most significant byte first. -/
def be : Nat → Nat → List Byte
  | 0, _ => []
  | n + 1, v => BitVec.ofNat 8 (v / 256 ^ n) :: be n v

/-- `unbe(s)`: the unsigned value of a byte sequence read most significant byte first. -/
def unbe (s : List Byte) : Nat := s.foldl (fun acc b => acc * 256 + b.toNat) 0

/-! ## BUF (R13, R40) -/

/-- `BUF[i]` as the block reads it: the byte written last, or, for a byte not written since the last reset, the draw
of that reset (R44, log 4). -/
def State.bufByte (s : State) (i : Nat) : Byte := (s.buf.get? i).getD (Config.bufDraw s.bufSeed i)

/-- `n` bytes of BUF from `BUF[a]`. -/
def State.bufFrom (s : State) : Nat → Nat → List Byte
  | _, 0 => []
  | a, n + 1 => s.bufByte a :: State.bufFrom s (a + 1) n

/-- `BufSeq(a, b)`: `[BUF[a], ..., BUF[b-1]]`, empty when `a ≥ b` (R13). -/
def State.bufSeq (s : State) (a b : Nat) : List Byte := s.bufFrom a (b - a)

/-- `MemRead(off, n)`: the unsigned value of n bytes of BUF from `off`, big-endian (R13). -/
def State.memRead (s : State) (off n : Nat) : Nat := unbe (s.bufSeq off (off + n))

/-- `MemRead(off, n)` for n ≤ 4, as a value to be written into a register. -/
def State.memWord (s : State) (off n : Nat) : Word := BitVec.ofNat 32 (s.memRead off n)

/-- The window word of `BUF[4k..4k+3]`, big-endian (R54). -/
def State.windowWord (s : State) (k : Nat) : Word :=
  s.bufByte (4 * k) ++ s.bufByte (4 * k + 1) ++ s.bufByte (4 * k + 2) ++ s.bufByte (4 * k + 3)

/-- A write of `d` to the window word of `BUF[4k..4k+3]`, big-endian (R54). -/
def State.writeWindow (s : State) (k : Nat) (d : Word) : State :=
  { s with
    buf := s.buf.setBytes (4 * k)
      [d.extractLsb' 24 8, d.extractLsb' 16 8, d.extractLsb' 8 8, d.extractLsb' 0 8] }

/-! ## The address map (R22, R52) -/

/-- The byte offset of a register (R22, R93). -/
def Reg.offset : Reg → Nat
  | .ctrl => 0x0000
  | .status => 0x0004
  | .cmd => 0x0008
  | .cap => 0x000C
  | .data .len => 0x0010
  | .data .crcOut => 0x0014
  | .data .seqLast => 0x0018
  | .data .seqIn => 0x001C
  | .data .seqRes => 0x0020
  | .data .seqLoss => 0x0024
  | .data .fldVer => 0x0040
  | .data .fldType => 0x0044
  | .data .fldDevid => 0x0048
  | .data .fldSeq => 0x004C
  | .data .fldCsum => 0x0050
  | .data .fldFlags => 0x0054
  | .data .fldLat => 0x0058
  | .data .fldLon => 0x005C
  | .data .fldAlt => 0x0060
  | .data .fldTs => 0x0064
  | .data .fldSpeed => 0x0068
  | .data .fldHeading => 0x006C
  | .data .fldBatt => 0x0070
  | .data .fldStatus => 0x0074

/-- The register at a byte offset, if there is one (R22, R52). -/
def Reg.ofOffset : Nat → Option Reg
  | 0x0000 => some .ctrl
  | 0x0004 => some .status
  | 0x0008 => some .cmd
  | 0x000C => some .cap
  | 0x0010 => some (.data .len)
  | 0x0014 => some (.data .crcOut)
  | 0x0018 => some (.data .seqLast)
  | 0x001C => some (.data .seqIn)
  | 0x0020 => some (.data .seqRes)
  | 0x0024 => some (.data .seqLoss)
  | 0x0040 => some (.data .fldVer)
  | 0x0044 => some (.data .fldType)
  | 0x0048 => some (.data .fldDevid)
  | 0x004C => some (.data .fldSeq)
  | 0x0050 => some (.data .fldCsum)
  | 0x0054 => some (.data .fldFlags)
  | 0x0058 => some (.data .fldLat)
  | 0x005C => some (.data .fldLon)
  | 0x0060 => some (.data .fldAlt)
  | 0x0064 => some (.data .fldTs)
  | 0x0068 => some (.data .fldSpeed)
  | 0x006C => some (.data .fldHeading)
  | 0x0070 => some (.data .fldBatt)
  | 0x0074 => some (.data .fldStatus)
  | _ => none

/-- The first address of the BUF window (R52). -/
def windowBase : Nat := 0x8000

/-- What an address names, `none` when it is misaligned or unmapped (R52, R53, R57). -/
def addrTarget (p : Params) (a : Half) : Option Target :=
  if a.toNat % 4 ≠ 0 then none
  else if a.toNat < windowBase then (Reg.ofOffset a.toNat).map Target.reg
  else if a.toNat + 4 ≤ windowBase + p.bufBytes then some (.window ((a.toNat - windowBase) / 4))
  else none

/-! ## Write sets (R85 "writes" column, R161) -/

/-- The registers in a command's write set. -/
def Instr.writesReg : Instr → DataReg → Bool
  | .crc _, r => r == .crcOut
  | .encData, r => r == .len || r == .crcOut
  | .encAck, r => r == .len || r == .crcOut
  | .encHb, r => r == .len || r == .crcOut
  | .decode, r =>
    match r with
    | .crcOut => true
    | .fldVer | .fldType | .fldDevid | .fldSeq | .fldCsum | .fldFlags => true
    | .fldLat | .fldLon | .fldAlt | .fldTs | .fldSpeed | .fldHeading | .fldBatt | .fldStatus => true
    | .len | .seqLast | .seqIn | .seqRes | .seqLoss => false
  | .classify, r => r == .seqRes || r == .seqLoss

/-- How many bytes of BUF, from `BUF[0]`, a command's write set holds. -/
def Instr.writesBuf : Instr → Nat
  | .crc _ => 0
  | .encData => Config.dataLen
  | .encAck => Config.headerLen
  | .encHb => Config.headerLen
  | .decode => 0
  | .classify => 0

/-- Whether a command's write set holds what an address names. A BUF word is in it when any of its four bytes is. -/
def Instr.writesTarget (i : Instr) : Target → Bool
  | .reg (.data r) => Instr.writesReg i r
  | .reg .ctrl => false
  | .reg .status => false
  | .reg .cmd => false
  | .reg .cap => false
  | .window k => decide (4 * k < Instr.writesBuf i)

/-- Whether the command in flight, if there is one, writes what an address names. -/
def State.inFlight (s : State) (t : Target) : Bool :=
  match s.eng with
  | .idle => false
  | .busy p _ => Instr.writesTarget p.instr t

end Sys2Proof.Machine
end

