-- ==== Sys2Proof/Machine/Flags.lean ====
section
/-! DEFINITION. The status flags and the words the host reads: STATUS (R24), CTRL (R23), CAP (R27), and the
interrupt output (R143). -/

namespace Sys2Proof.Machine

/-- The numeric value of a result code (R25). -/
def ResultCode.code : ResultCode → BitVec 4
  | .ok => 0x0#4
  | .tooShort => 0x1#4
  | .badChecksum => 0x2#4
  | .unsupportedVersion => 0x3#4
  | .illegalCmd => 0x8#4
  | .lenRange => 0x9#4

/-- STATUS as read (R24): LAST_OP [15:8], RESULT [7:4], bit 3 zero, WERR [2], DONE [1], BUSY [0]. -/
def State.statusWord (s : State) : Word :=
  0#16 ++ s.lastOp ++ s.result.code ++ 0#1 ++ BitVec.ofBool s.werr ++ BitVec.ofBool s.done ++ BitVec.ofBool s.busy

/-- CTRL as read (R23): IE in bit 1, SRST reads 0. -/
def State.ctrlWord (s : State) : Word := 0#30 ++ BitVec.ofBool s.ie ++ 0#1

/-- CAP (R27): MAP_REV [31:24], PROTO_VER [23:16], BUF_BYTES mod 65536 in [15:0]. -/
def State.capWord (s : State) : Word :=
  Config.mapRev ++ Config.protocolVersion ++ BitVec.ofNat 16 s.params.bufBytes

/-- `reg[NAME]` as a bus word: the implemented bits, every other bit 0 (R38). -/
def State.readReg (s : State) : Reg → Word
  | .ctrl => s.ctrlWord
  | .status => s.statusWord
  | .cmd => s.cmd
  | .cap => s.capWord
  | .data r => s.regs.get r

/-- The word at what an address names. -/
def State.readTarget (s : State) : Target → Word
  | .reg r => s.readReg r
  | .window k => s.windowWord k

/-- The interrupt output, a level: `IRQ = CTRL.IE & STATUS.DONE` (R143). -/
def State.irq (s : State) : Bool := s.ie && s.done

end Sys2Proof.Machine
end

