-- ==== Sys2Proof/Machine/Crc.lean ====
section
/-! DEFINITION. The CRC-16 family (40_crc.md): the primitive, the frame checksum and the command CRC. -/

namespace Sys2Proof.Machine

/-- One shift of the CRC register: XOR with 0xA001 when the bit shifted out is 1 (R95). -/
def crcShift (r : Half) : Half := if r.getLsbD 0 then (r >>> 1) ^^^ Config.crcPolyR else r >>> 1

/-- `n` shifts. -/
def crcShifts : Nat → Half → Half
  | 0, r => r
  | n + 1, r => crcShifts n (crcShift r)

/-- `step(r, b)`: one byte into the register (R95, R96). -/
def crcByte (r : Half) (b : Byte) : Half := crcShifts 8 (r ^^^ b.setWidth 16)

/-- `crc16(s)` (R95): no final XOR, reversal or swap. -/
def crc16 (s : List Byte) : Half := s.foldl crcByte Config.crcInit

/-- A byte sequence with bytes 6 and 7, where it has them, taken as 0 (R86, R98). -/
def zeroCsum (s : List Byte) : List Byte := (s.set Config.cksumOff 0#8).set (Config.cksumOff + 1) 0#8

/-- `fcrc(s)`: the checksum of a frame, its checksum field zeroed (R98). -/
def fcrc (s : List Byte) : Half := crc16 (zeroCsum s)

/-- The rule of CRC applied to a state (R97): CRC_OUT takes the CRC-16 of `BUF[0..LEN-1]`, masked when Z = 1. -/
def crcResult (z : Bool) (s : State) : CmdResult :=
  let t := s.bufSeq 0 s.regs.len.toNat
  ⟨[.reg .crcOut ((if z then fcrc t else crc16 t).setWidth 32)], .ok⟩

/-- CRC, CRC.Z (R97, R101). -/
def execCrc (z : Bool) (s : State) : Outcome := issue (.crc z) (crcResult z s) s

end Sys2Proof.Machine
end

