-- ==== Sys2Proof/Machine/Framer.lean ====
section
/-! DEFINITION. The datagram framer family (41_framer.md): the encoders ENC_DATA, ENC_ACK, ENC_HB and DECODE. -/

namespace Sys2Proof.Machine

/-! ## Encoding -/

/-- `hdr(t, dev, seq, cs, fl)`: the ten header bytes (R71, R105). -/
def hdr (t : Byte) (dev seq cs fl : Half) : List Byte :=
  [Config.protocolVersion, t] ++ be 2 dev.toNat ++ be 2 seq.toNat ++ be 2 cs.toNat ++ be 2 fl.toNat

/-- The checksum of the frame with header fields `t`, `dev`, `seq`, `fl` and payload `p` (R105: `c`). -/
def frameCsum (t : Byte) (dev seq fl : Half) (p : List Byte) : Half := crc16 (hdr t dev seq 0#16 fl ++ p)

/-- The frame itself (R105: `frame`). -/
def frame (t : Byte) (dev seq fl : Half) (p : List Byte) : List Byte :=
  hdr t dev seq (frameCsum t dev seq fl p) fl ++ p

/-- The DATA payload of the field registers, in the wire order of R72 (R106). The order is the spec's reading (log 12). -/
def payload (g : DataRegs) : List Byte :=
  be 4 g.fldLat.toNat ++ be 4 g.fldLon.toNat ++ be 2 g.fldAlt.toNat ++ be 4 g.fldTs.toNat
    ++ be 2 g.fldSpeed.toNat ++ be 2 g.fldHeading.toNat ++ [g.fldBatt] ++ [g.fldStatus]

/-- What an encoder does with the frame it built (R106 to R109): BUF from byte 0, LEN and CRC_OUT. -/
def encoderResult (f : List Byte) (c : Half) : CmdResult :=
  ⟨bufWrites 0 f ++ [.reg .len (BitVec.ofNat 32 f.length), .reg .crcOut (c.setWidth 32)], .ok⟩

/-- The rule of ENC_DATA applied to a state (R106). -/
def encDataResult (s : State) : CmdResult :=
  let g := s.regs
  encoderResult (frame s.params.mtData g.fldDevid g.fldSeq g.fldFlags (payload g))
    (frameCsum s.params.mtData g.fldDevid g.fldSeq g.fldFlags (payload g))

/-- The rule of ENC_ACK applied to a state (R107): FLD_FLAGS is not read, the flags are 0. -/
def encAckResult (s : State) : CmdResult :=
  let g := s.regs
  encoderResult (frame s.params.mtAck g.fldDevid g.fldSeq 0#16 [])
    (frameCsum s.params.mtAck g.fldDevid g.fldSeq 0#16 [])

/-- The rule of ENC_HB applied to a state (R108). -/
def encHbResult (s : State) : CmdResult :=
  let g := s.regs
  encoderResult (frame s.params.mtHeartbeat g.fldDevid g.fldSeq g.fldFlags [])
    (frameCsum s.params.mtHeartbeat g.fldDevid g.fldSeq g.fldFlags [])

/-- ENC_DATA (R106, R109). -/
def execEncData (s : State) : Outcome := issue .encData (encDataResult s) s

/-- ENC_ACK (R107, R109). -/
def execEncAck (s : State) : Outcome := issue .encAck (encAckResult s) s

/-- ENC_HB (R108, R109). -/
def execEncHb (s : State) : Outcome := issue .encHb (encHbResult s) s

/-! ## Decoding -/

/-- The header registers a successful DECODE writes (R110, R112). -/
def headerWrites (s : State) : List EngWrite :=
  [.reg .fldVer ((s.bufByte 0).setWidth 32), .reg .fldType ((s.bufByte 1).setWidth 32),
    .reg .fldDevid (s.memWord 2 2), .reg .fldSeq (s.memWord 4 2),
    .reg .fldCsum (s.memWord 6 2), .reg .fldFlags (s.memWord 8 2)]

/-- The payload registers a successful DECODE of a DATA frame also writes (R110, R113). -/
def payloadWrites (s : State) : List EngWrite :=
  [.reg .fldLat (s.memWord 10 4), .reg .fldLon (s.memWord 14 4), .reg .fldAlt (s.memWord 18 2),
    .reg .fldTs (s.memWord 20 4), .reg .fldSpeed (s.memWord 24 2), .reg .fldHeading (s.memWord 26 2),
    .reg .fldBatt ((s.bufByte 28).setWidth 32), .reg .fldStatus ((s.bufByte 29).setWidth 32)]

/-- The type byte of the frame in BUF says DATA (R110). -/
def State.frameIsData (s : State) : Bool := s.bufByte 1 == s.params.mtData

/-- The result code of DECODE, its checks in the order of R111 (the LEN_RANGE check is made at issue). -/
def decodeCode (s : State) : ResultCode :=
  let l := s.regs.len.toNat
  if l < Config.headerLen then .tooShort
  else if (fcrc (s.bufSeq 0 l)).toNat ≠ s.memRead Config.cksumOff 2 then .badChecksum
  else if s.bufByte 0 ≠ Config.protocolVersion then .unsupportedVersion
  else if s.frameIsData && decide (l < Config.dataLen) then .tooShort
  else .ok

/-- The CRC_OUT write of DECODE, made exactly when LEN ≥ 10 (R110, R114). -/
def decodeCrcWrite (s : State) : List EngWrite :=
  let l := s.regs.len.toNat
  if l < Config.headerLen then [] else [.reg .crcOut ((fcrc (s.bufSeq 0 l)).setWidth 32)]

/-- The field writes of DECODE: none unless the result is OK (R112 to R114). -/
def decodeFieldWrites (s : State) : List EngWrite :=
  if decodeCode s = .ok then headerWrites s ++ (if s.frameIsData then payloadWrites s else []) else []

/-- The rule of DECODE applied to a state (R110). -/
def decodeResult (s : State) : CmdResult := ⟨decodeCrcWrite s ++ decodeFieldWrites s, decodeCode s⟩

/-- DECODE (R110 to R117). -/
def execDecode (s : State) : Outcome := issue .decode (decodeResult s) s

end Sys2Proof.Machine
end

