-- ==== Sys2Proof/Machine/SeqCmp.lean ====
section
/-! DEFINITION. The sequence comparator family (42_seqcmp.md): the command CLASSIFY. -/

namespace Sys2Proof.Machine

/-- The ring distance from `last` to `s`, the 16-bit wrap-around difference (R125). -/
def ringDist (last s : Half) : Half := s - last

/-- The verdict: Fresh exactly when 0 < d < 32768 (R127, R129). -/
def isFresh (d : Half) : Bool := decide (0 < d.toNat) && decide (d.toNat < Config.seqHalf)

/-- SEQ_RES = {FRESH, DIST} (R31, R126). -/
def seqResOf (d : Half) : BitVec 17 := BitVec.ofBool (isFresh d) ++ d

/-- SEQ_LOSS: d - 1 for Fresh, 0 for Stale (R128). -/
def seqLossOf (d : Half) : Half := if isFresh d then d - 1#16 else 0#16

/-- The rule of CLASSIFY applied to a state (R126). -/
def classifyResult (s : State) : CmdResult :=
  let d := ringDist s.regs.seqLast s.regs.seqIn
  ⟨[.reg .seqRes ((seqResOf d).setWidth 32), .reg .seqLoss ((seqLossOf d).setWidth 32)], .ok⟩

/-- CLASSIFY (R126 to R130). -/
def execClassify (s : State) : Outcome := issue .classify (classifyResult s) s

end Sys2Proof.Machine
end

