-- ==== Sys2Proof/Machine/Dispatch.lean ====
section
/-! DEFINITION. One arm per command: the write of its command word to CMD (R160), in any engine state. -/

namespace Sys2Proof.Machine

def exec (i : Instr) (s : State) : Host.Outcome State Fault Refusal :=
  match i with
  | .crc z => Sys2Proof.Machine.execCrc z s
  | .encData => Sys2Proof.Machine.execEncData s
  | .encAck => Sys2Proof.Machine.execEncAck s
  | .encHb => Sys2Proof.Machine.execEncHb s
  | .decode => Sys2Proof.Machine.execDecode s
  | .classify => Sys2Proof.Machine.execClassify s

end Sys2Proof.Machine
end

