-- ==== Sys2Proof/Machine/Bus.lean ====
section
/-! DEFINITION. The host's two operations on the block, `Read(a)` and `Write(a, d)` (20_memory.md R51), with the
checks of a write in the order of 60_exceptions.md R140, and one turn of the host's WAIT loop. -/

namespace Sys2Proof.Machine

/-- `Read(a)` (R51, R53, R58, R161): ERROR and 0 for an address that is not mapped; a draw for what the command in
flight writes; else the word. Nothing but the response (and the count of draws) changes. -/
def hostRead (a : Half) (s : State) : State :=
  match addrTarget s.params a with
  | none => s.respond (.read .error 0#32)
  | some t =>
    if s.inFlight t then
      { s with response := some (.read .okay (Config.readDraw s.draws)), draws := s.draws + 1 }
    else s.respond (.read .okay (s.readTarget t))

/-- The write of `d` to what a mapped address names, ENG being IDLE and the address not CTRL (R140, checks 4 to 7):
CMD issues or rejects, STATUS clears flags (R24), a read-only register takes nothing (R39), a register takes its
bits (R38), the window takes four bytes (R54). -/
def writeIdle (t : Target) (d : Word) (s : State) : Outcome :=
  match t with
  | .reg .ctrl => .next (s.writeCtrl d)
  | .reg .status => .next (s.clearFlags d)
  | .reg .cmd =>
    match decodeWord d with
    | .error _ => .next (s.reject d .illegalCmd)
    | .ok i => exec i s
  | .reg .cap => .next s
  | .reg (.data r) => .next (if r.hostWritable then s.setReg r d else s)
  | .window k => .next (s.writeWindow k d)

/-- The write of `d` to what a mapped address names: CTRL is always taken (R23), every other write is ignored while
ENG = BUSY (R139, R140 checks 2 and 3). -/
def writeTarget (t : Target) (d : Word) (s : State) : Outcome :=
  if t = .reg .ctrl then .next (s.writeCtrl d)
  else if s.busy then .next s.ignoreWrite
  else writeIdle t d s

/-- `Write(a, d)` (R51, R140): ERROR and no effect for an address that is not mapped (R53); every other write has
response OKAY (R39, R138, R139, R156). -/
def hostWrite (a : Half) (d : Word) (s : State) : Outcome :=
  match addrTarget s.params a with
  | none => .next (s.respond (.write .error))
  | some t => writeTarget t d (s.respond (.write .okay))

/-- The bus address of STATUS. -/
def statusAddr : Half := 0x0004#16

/-- The bus address of CMD. -/
def cmdAddr : Half := 0x0008#16

/-- One turn of the host's WAIT loop (R91): a read of STATUS, and, while it says BUSY, the loop goes on after one
engine step (log 9). -/
def hostPoll (s : State) : State :=
  let t := hostRead statusAddr s
  if s.busy then { t with inputs := .engine :: .wait :: t.inputs } else t

end Sys2Proof.Machine
end

