-- ==== Sys2Proof/Machine/HostProgram.lean ====
section
/-! DEFINITION. Host programs (30_encoding.md R90 to R93): the host's assembly as syntax, and its expansion into the
list of bus operations that is its encoding. -/

namespace Sys2Proof.Machine

/-- `<target>` of a host operation (R90). -/
inductive AsmTarget where
  /-- A register name of R22. -/
  | reg (r : Reg)
  /-- `BUF+<n>`, n a multiple of 4. -/
  | bufPlus (n : Nat)
  /-- A 16-bit numeric address. -/
  | addr (a : Half)
  deriving DecidableEq, Repr

/-- A line of a host program (R90, R91). The names a host gives to data it reads are its own and leave no trace. -/
inductive HostOp where
  /-- `WR <target>, <imm32>`. -/
  | wr (t : AsmTarget) (d : Word)
  /-- `RD <target>`. -/
  | rd (t : AsmTarget)
  /-- `CMD <mn>`. -/
  | cmd (i : Instr)
  /-- `WAIT`. -/
  | wait
  /-- `RUN <mn>`. -/
  | run (i : Instr)
  /-- `WRBUF <n>, b0 b1 ...`, n a multiple of 4. -/
  | wrbuf (n : Nat) (bytes : List Byte)
  /-- `RDBUF <n>, m`, n a multiple of 4. -/
  | rdbuf (n m : Nat)
  /-- `CLRDONE`. -/
  | clrDone
  /-- `CLRWERR`. -/
  | clrWerr
  /-- `SRST`. -/
  | srst
  deriving DecidableEq, Repr

/-- The address a target stands for (R93). DESIGN CHOICE (log 15): where `0x8000 + n` passes 0xFFFF (n ≥ 0x8000) the
spec gives `BUF+n` no 16-bit address; the model takes it modulo 2^16, so it falls on the register addresses. -/
def AsmTarget.address : AsmTarget → Half
  | .reg r => BitVec.ofNat 16 r.offset
  | .bufPlus n => BitVec.ofNat 16 (windowBase + n)
  | .addr a => a

/-- WRBUF as bus writes (R91): four bytes a word, big-endian, the missing bytes of the last word 0x00. A run
past byte 0x7FFF of the window wraps onto the register addresses: the model's choice, as is an n that is no multiple of
4 (log 15). -/
def wrbufEvents : Nat → List Byte → List Event
  | _, [] => []
  | n, [b0] => [.write (AsmTarget.bufPlus n).address (b0 ++ 0#8 ++ 0#8 ++ 0#8)]
  | n, [b0, b1] => [.write (AsmTarget.bufPlus n).address (b0 ++ b1 ++ 0#8 ++ 0#8)]
  | n, [b0, b1, b2] => [.write (AsmTarget.bufPlus n).address (b0 ++ b1 ++ b2 ++ 0#8)]
  | n, b0 :: b1 :: b2 :: b3 :: bs =>
    .write (AsmTarget.bufPlus n).address (b0 ++ b1 ++ b2 ++ b3) :: wrbufEvents (n + 4) bs

/-- `k` window reads from byte `n` (R91). A run past byte 0x7FFF wraps likewise (log 15). -/
def rdbufEvents : Nat → Nat → List Event
  | _, 0 => []
  | n, k + 1 => .read (AsmTarget.bufPlus n).address :: rdbufEvents (n + 4) k

/-- The expansion of a line into bus operations (R91, R92). -/
def HostOp.expand : HostOp → List Event
  | .wr t d => [.write t.address d]
  | .rd t => [.read t.address]
  | .cmd i => [.write cmdAddr (encode i)]
  | .wait => [.wait]
  | .run i => [.write cmdAddr (encode i), .wait]
  | .wrbuf n bytes => wrbufEvents n bytes
  | .rdbuf n m => rdbufEvents n ((m + 3) / 4)
  | .clrDone => [.write statusAddr 0x00000002#32]
  | .clrWerr => [.write statusAddr 0x00000004#32]
  | .srst => [.write (AsmTarget.reg .ctrl).address 0x00000001#32]

/-- The encoding of a host program: its expanded list of bus operations (R92). -/
def expandProgram (p : List HostOp) : List Event := p.flatMap HostOp.expand

/-- The block with a host program still to be run after what is already coming (log 2). -/
def State.load (s : State) (p : List HostOp) : State := { s with inputs := s.inputs ++ expandProgram p }

end Sys2Proof.Machine
end

