-- ==== Sys2Proof/Machine/Step.lean ====
section
/-! DEFINITION. One step of the block: the next event takes effect (20_memory.md R61). -/

namespace Sys2Proof.Machine

/-- One step (R20, R61, R155): the event at the head of `inputs`; when nothing is left to come from outside, the
engine moves (log 2). -/
def step (s : State) : Host.Outcome State Fault Refusal :=
  match s.inputs with
  | [] => .next s.engineTick
  | .read a :: _ => .next (hostRead a s.popInput)
  | .write a d :: _ => hostWrite a d s.popInput
  | .engine :: _ => .next s.popInput.engineTick
  | .hwReset :: _ => .next s.popInput.resetBlock
  | .wait :: _ => .next (hostPoll s.popInput)

/-- `s` with the host's next access the write of a command word to CMD: the place where this machine, which has no
program counter, takes its next instruction (R21, R26; log 2). -/
def State.withFetchWord (s : State) (nbits w : Nat) : State :=
  { s with inputs := .write cmdAddr (BitVec.ofNat 32 (w % 2 ^ nbits)) :: s.inputs }

end Sys2Proof.Machine
end

