-- ==== Sys2Proof/Safety.lean ====
section
/-! DEFINITION. The terms the claims are stated in: what a command's rule gives on a state, the invariant of the
machine, the kinds of events, and the wire layout written out by bit slices from the tables R71 and R72. -/

namespace Sys2Proof.Machine

/-- What the rule of a command gives when applied to a state (R14, R43). -/
def commandResult : Instr → State → CmdResult
  | .crc z, s => crcResult z s
  | .encData, s => encDataResult s
  | .encAck, s => encAckResult s
  | .encHb, s => encHbResult s
  | .decode, s => decodeResult s
  | .classify, s => classifyResult s

/-- The invariant of the machine: it holds at reset and every step keeps it. -/
structure State.Inv (s : State) : Prop where
  /-- The parameters meet R10. -/
  params : s.params.wf = true
  /-- BUF is in canonical form. -/
  bufSorted : s.buf.wf
  /-- Every written byte lies in `BUF[0..BUF_BYTES-1]` (R40). -/
  bufWithin : s.buf.within s.params.bufBytes
  /-- DONE is 0 while a command is in flight (R24: cleared by acceptance, set by its completion). -/
  doneClear : s.busy = true → s.done = false
  /-- The remaining latency of a command in flight is at least 1 (R10, R160). -/
  latency : s.busy = true → 1 ≤ s.remaining
  /-- The pending result, fixed at issue, is what the command's rule gives on the state now: no operand changes while
  BUSY (R139, 92_eei_decisions.md D17). -/
  snapshot : ∀ p n, s.eng = .busy p n → p.res = commandResult p.instr s
  /-- A command that checks LEN is in flight only with LEN ≤ BUF_BYTES (R138). -/
  lenInRange : ∀ p n, s.eng = .busy p n → Instr.checksLen p.instr = true → s.regs.len.toNat ≤ s.params.bufBytes
  /-- The CMD read-back is the word of the command in flight (R26). -/
  cmdInFlight : ∀ p n, s.eng = .busy p n → s.cmd = encode p.instr
  /-- FLD_VER is its reset value or the one version DECODE accepts (R34, R44, R75). -/
  version : s.regs.fldVer = 0#8 ∨ s.regs.fldVer = Config.protocolVersion
  /-- SEQ_RES and SEQ_LOSS report one and the same distance (R31, R32). -/
  verdict : ∃ d : Half, s.regs.seqRes = seqResOf d ∧ s.regs.seqLoss = seqLossOf d
  /-- BUF's draw has been taken (log 4). -/
  drawn : s.bufSeed < s.draws

/-! ## Groups of registers and commands -/

/-- The field register file FLD_* (R33). -/
def fieldRegs : List DataReg :=
  [.fldVer, .fldType, .fldDevid, .fldSeq, .fldCsum, .fldFlags, .fldLat, .fldLon, .fldAlt, .fldTs, .fldSpeed,
    .fldHeading, .fldBatt, .fldStatus]

/-- The read-only registers besides CAP (R39). -/
def readOnlyRegs : List DataReg := [.crcOut, .seqRes, .seqLoss, .fldVer, .fldType, .fldCsum]

/-- The encoders and the lengths of their frames (R109). -/
def encoders : List (Instr × Nat) := [(.encData, 30), (.encAck, 10), (.encHb, 10)]

/-! ## Kinds of events -/

/-- An engine step. -/
def Event.isEngine : Event → Bool
  | .engine => true
  | .read _ | .write _ _ | .hwReset | .wait => false

/-- A reset: the hardware reset input, or a write to CTRL with SRST = 1 (R155). -/
def Event.isReset : Event → Bool
  | .hwReset => true
  | .write a d => a == 0x0000#16 && d.getLsbD 0
  | .read _ | .engine | .wait => false

/-- A WAIT loop of the host. -/
def Event.isWait : Event → Bool
  | .wait => true
  | .read _ | .write _ _ | .engine | .hwReset => false

/-- The next step is a reset. -/
def State.resetsNext (s : State) : Bool :=
  match s.inputs with
  | [] => false
  | e :: _ => e.isReset

/-- The next step completes the command `i`. -/
def State.completesNext (s : State) (i : Instr) : Prop :=
  (∃ p, s.eng = .busy p s.remaining ∧ p.instr = i) ∧ s.remaining ≤ 1 ∧
    (s.inputs = [] ∨ ∃ rest, s.inputs = .engine :: rest)

/-! ## The wire layout by bit slices (R71, R72, R94) -/

/-- Bits [15:8] of a 16-bit value. -/
def hi8 (v : Half) : Byte := v.extractLsb' 8 8
/-- Bits [7:0] of a 16-bit value. -/
def lo8 (v : Half) : Byte := v.extractLsb' 0 8

/-- The header of R71, byte by byte. -/
def wireHeader (t : Byte) (dev seq cs fl : Half) : List Byte :=
  [0x01#8, t, hi8 dev, lo8 dev, hi8 seq, lo8 seq, hi8 cs, lo8 cs, hi8 fl, lo8 fl]

/-- The four bytes of a 32-bit field, most significant first. -/
def wire32 (v : Word) : List Byte :=
  [v.extractLsb' 24 8, v.extractLsb' 16 8, v.extractLsb' 8 8, v.extractLsb' 0 8]

/-- The payload of R72, byte by byte, from the field registers. -/
def wirePayload (g : DataRegs) : List Byte :=
  wire32 g.fldLat ++ wire32 g.fldLon ++ [hi8 g.fldAlt, lo8 g.fldAlt] ++ wire32 g.fldTs
    ++ [hi8 g.fldSpeed, lo8 g.fldSpeed, hi8 g.fldHeading, lo8 g.fldHeading, g.fldBatt, g.fldStatus]

/-- The frame of R105: the checksum is the CRC-16 of the frame with bytes 6 and 7 zero. -/
def wireFrame (t : Byte) (dev seq fl : Half) (p : List Byte) : List Byte :=
  wireHeader t dev seq (crc16 (wireHeader t dev seq 0#16 fl ++ p)) fl ++ p

/-- A 16-bit field of the frame in BUF, big-endian. -/
def State.buf16 (s : State) (i : Nat) : Half := s.bufByte i ++ s.bufByte (i + 1)

/-- A 32-bit field of the frame in BUF, big-endian. -/
def State.buf32 (s : State) (i : Nat) : Word :=
  s.bufByte i ++ s.bufByte (i + 1) ++ s.bufByte (i + 2) ++ s.bufByte (i + 3)

/-- A command word is illegal (R87). -/
def illegalWord (w : Word) : Prop :=
  (opField w = 0x00#8 ∨ 0x07 ≤ (opField w).toNat) ∨ (zField w = true ∧ opField w ≠ 0x01#8) ∨ reservedField w ≠ 0#23

end Sys2Proof.Machine
end

