-- ==== Sys2Proof/Certificates/Slice0/Obligations.lean ====
section
/-! DEFINITION. The statements for the provers. Each docstring says which rule of the spec it formalises. `t.finish`
is the block after the engine steps of the command in flight, all of them (R160, R137). -/

open Sys2Proof Sys2Proof.Machine

/-! ## Reset -/

/-- R44 with R27: the state right after reset. The draw of BUF's contents is a free value (log 4); the value of CAP is
that of the default parameters of R10 (log 1). -/
def Obligations.ResetStateReadsZero : Prop :=
  (∀ r : Reg, r ≠ .cap → State.reset.readReg r = 0#32) ∧ State.reset.readReg .cap = 0x01010040#32 ∧
  State.reset.eng = .idle ∧ State.reset.irq = false ∧
  ∀ i, State.reset.bufByte i = Config.bufDraw State.reset.bufSeed i

/-- R44, R155 to R158: either reset source, in any engine state, in one step. BUF is a new draw; the parameters and the
events to come are the model's own fields (logs 1, 10). -/
def Obligations.ResetEventSetsEveryRegister : Prop :=
  ∀ (s : State) (rest : List Event),
    (s.inputs = .hwReset :: rest ∨ ∃ d : Word, d.getLsbD 0 = true ∧ s.inputs = .write 0x0000#16 d :: rest) →
    ∃ t, step s = .next t ∧ t.eng = .idle ∧ (∀ r : Reg, r ≠ .cap → t.readReg r = 0#32) ∧
      t.readReg .cap = s.readReg .cap ∧ t.irq = false ∧
      (∀ i, t.bufByte i = Config.bufDraw s.draws i) ∧ s.draws < t.draws ∧ t.params = s.params ∧ t.inputs = rest ∧
      (∀ d, s.inputs = .write 0x0000#16 d :: rest → t.response = some (.write .okay))

/-- The invariant holds at reset. -/
def Obligations.InvHoldsAtReset : Prop := State.reset.Inv

/-- Every step keeps the invariant, from every state that has it. -/
def Obligations.StepKeepsInv : Prop := ∀ s t : State, s.Inv → step s = .next t → t.Inv

/-! ## The command word -/

/-- Seven words written out from R84 and R85, and three illegal ones. -/
def Obligations.SampleWordsDecode : Prop :=
  decodeWord 0x00000001#32 = .ok (.crc false) ∧ decodeWord 0x00000101#32 = .ok (.crc true) ∧
  decodeWord 0x00000002#32 = .ok .encData ∧ decodeWord 0x00000003#32 = .ok .encAck ∧
  decodeWord 0x00000004#32 = .ok .encHb ∧ decodeWord 0x00000005#32 = .ok .decode ∧
  decodeWord 0x00000006#32 = .ok .classify ∧ decodeWord 0x00000000#32 = .error .badOpcode ∧
  decodeWord 0x00000102#32 = .error .zeroMaskNotCrc ∧ decodeWord 0x80000001#32 = .error .reservedBits

/-- The decoder reads a command from a word exactly when the word is that command's (R84, R85). -/
def Obligations.DecoderInvertsEncoder : Prop := ∀ (w : Word) (i : Instr), decodeWord w = .ok i ↔ w = encode i

/-- R88: every word is one of the seven legal words or illegal by R87, and the decoder says which. -/
def Obligations.EveryWordIsLegalOrIllegal : Prop :=
  ∀ w : Word,
    (w ∈ [0x00000001#32, 0x00000101#32, 0x00000002#32, 0x00000003#32, 0x00000004#32, 0x00000005#32, 0x00000006#32] ∧
      ¬ illegalWord w ∧ ∃ i, decodeWord w = .ok i) ∨
    (w ∉ [0x00000001#32, 0x00000101#32, 0x00000002#32, 0x00000003#32, 0x00000004#32, 0x00000005#32, 0x00000006#32] ∧
      illegalWord w ∧ ∃ e, decodeWord w = .error e)

/-- The match and mask columns of opcode_table.json. -/
def Obligations.DecoderFollowsOpcodeTable : Prop :=
  ∀ w : Word,
    (w &&& 0xFFFFFEFF#32 = 0x00000001#32 ↔ ∃ z, decodeWord w = .ok (.crc z)) ∧
    (w &&& 0xFFFFFFFF#32 = 0x00000002#32 ↔ decodeWord w = .ok .encData) ∧
    (w &&& 0xFFFFFFFF#32 = 0x00000003#32 ↔ decodeWord w = .ok .encAck) ∧
    (w &&& 0xFFFFFFFF#32 = 0x00000004#32 ↔ decodeWord w = .ok .encHb) ∧
    (w &&& 0xFFFFFFFF#32 = 0x00000005#32 ↔ decodeWord w = .ok .decode) ∧
    (w &&& 0xFFFFFFFF#32 = 0x00000006#32 ↔ decodeWord w = .ok .classify)

/-- A write of a command's word to CMD runs that command, in any engine state (R26, R140): the step is `exec` of it on
the block that has taken the access off the list and answered OKAY. -/
def Obligations.StepRunsTheDecodedCommand : Prop :=
  ∀ (s : State) (w : Word) (i : Instr) (rest : List Event),
    s.inputs = .write 0x0008#16 w :: rest → decodeWord w = .ok i →
    step s = exec i { s with inputs := rest, response := some (.write .okay) }

/-! ## Bus accesses -/

/-- R52: which addresses are mapped. -/
def Obligations.AddressMapIsTheTable : Prop :=
  ∀ (p : Params) (a : Half), p.wf = true →
    (addrTarget p a ≠ none ↔ a.toNat % 4 = 0 ∧
      (a.toNat ≤ 0x0024 ∨ (0x0040 ≤ a.toNat ∧ a.toNat ≤ 0x0074) ∨
        (0x8000 ≤ a.toNat ∧ a.toNat ≤ 0x8000 + p.bufBytes - 4)))

/-- R53: misaligned and unmapped accesses, in any engine state. -/
def Obligations.UnmappedAccessGetsError : Prop :=
  ∀ (s : State) (a : Half) (rest : List Event), (a.toNat % 4 ≠ 0 ∨ addrTarget s.params a = none) →
    (s.inputs = .read a :: rest →
      step s = .next { s with inputs := rest, response := some (.read .error 0#32) }) ∧
    (∀ d, s.inputs = .write a d :: rest →
      step s = .next { s with inputs := rest, response := some (.write .error) })

/-- R58, R61: a read answers the word and leaves the block as it was; outside the write set of the command in flight
the word is the register's or the window's. -/
def Obligations.ReadChangesNothing : Prop :=
  ∀ (s : State) (a : Half) (rest : List Event), s.inputs = .read a :: rest →
    (∃ r n, step s = .next { s with inputs := rest, response := some r, draws := n }) ∧
    (∀ t, addrTarget s.params a = some t → s.inFlight t = false →
      step s = .next { s with inputs := rest, response := some (.read .okay (s.readTarget t)) })

/-- R161: a read while BUSY of what the command in flight writes answers a draw, a fresh one each time; every other
read answers its value; and the write sets. -/
def Obligations.BusyReadOfWriteSetIsADraw : Prop :=
  (∀ (s : State) (a : Half) (t : Target) (p : Pending) (n : Nat) (rest : List Event),
    s.inputs = .read a :: rest → addrTarget s.params a = some t → s.eng = .busy p n →
    step s = .next (if Instr.writesTarget p.instr t = true
      then { s with inputs := rest, response := some (.read .okay (Config.readDraw s.draws)), draws := s.draws + 1 }
      else { s with inputs := rest, response := some (.read .okay (s.readTarget t)) })) ∧
  (∀ z t, Instr.writesTarget (.crc z) t = true ↔ t = .reg (.data .crcOut)) ∧
  (∀ t, Instr.writesTarget .encData t = true ↔
    t = .reg (.data .len) ∨ t = .reg (.data .crcOut) ∨ ∃ k, k ≤ 7 ∧ t = .window k) ∧
  (∀ i, i = .encAck ∨ i = .encHb → ∀ t, Instr.writesTarget i t = true ↔
    t = .reg (.data .len) ∨ t = .reg (.data .crcOut) ∨ ∃ k, k ≤ 2 ∧ t = .window k) ∧
  (∀ t, Instr.writesTarget .decode t = true ↔
    t = .reg (.data .crcOut) ∨ ∃ r, r ∈ fieldRegs ∧ t = .reg (.data r)) ∧
  (∀ t, Instr.writesTarget .classify t = true ↔ t = .reg (.data .seqRes) ∨ t = .reg (.data .seqLoss))

/-- R38: an idle write to a writable register stores its implemented bits and changes nothing else; a read is never
wider than the register. -/
def Obligations.RegisterWriteStoresItsBits : Prop :=
  (∀ (s : State) (r : DataReg) (d : Word) (rest : List Event), r ∉ readOnlyRegs → s.eng = .idle →
    s.inputs = .write (BitVec.ofNat 16 (Reg.offset (.data r))) d :: rest →
    ∃ t, step s = .next t ∧ (t.readReg (.data r)).toNat = d.toNat % 2 ^ r.width ∧
      (∀ q, q ≠ r → t.readReg (.data q) = s.readReg (.data q)) ∧
      t = { s with inputs := rest, response := some (.write .okay), regs := t.regs }) ∧
  (∀ (s : State) (r : DataReg), (s.readReg (.data r)).toNat < 2 ^ r.width)

/-- R39: a write to a read-only register or to a read-only STATUS field is ignored with OKAY, and sets WERR while BUSY. -/
def Obligations.ReadOnlyWritesAreIgnored : Prop :=
  (∀ (s : State) (q : Reg) (d : Word) (rest : List Event), (q = .cap ∨ ∃ r, r ∈ readOnlyRegs ∧ q = .data r) →
    s.inputs = .write (BitVec.ofNat 16 q.offset) d :: rest →
    step s = .next { s with inputs := rest, response := some (.write .okay), werr := s.werr || s.busy }) ∧
  (∀ (s : State) (d : Word) (rest : List Event), s.inputs = .write 0x0004#16 d :: rest →
    ∃ t, step s = .next t ∧ t.result = s.result ∧ t.lastOp = s.lastOp ∧ t.eng = s.eng ∧
      t.response = some (.write .okay) ∧ (s.busy = true → t.werr = true))

/-- R54: the window word k is `BUF[4k..4k+3]`, `BUF[4k]` in bits [31:24], read and written. -/
def Obligations.WindowWordIsBigEndian : Prop :=
  ∀ (s : State) (k : Nat) (rest : List Event), s.params.wf = true → 4 * k < s.params.bufBytes →
    (s.inputs = .read (BitVec.ofNat 16 (0x8000 + 4 * k)) :: rest → s.inFlight (.window k) = false →
      ∃ d : Word, step s = .next { s with inputs := rest, response := some (.read .okay d) } ∧
        d.extractLsb' 24 8 = s.bufByte (4 * k) ∧ d.extractLsb' 16 8 = s.bufByte (4 * k + 1) ∧
        d.extractLsb' 8 8 = s.bufByte (4 * k + 2) ∧ d.extractLsb' 0 8 = s.bufByte (4 * k + 3)) ∧
    (∀ d : Word, s.inputs = .write (BitVec.ofNat 16 (0x8000 + 4 * k)) d :: rest → s.eng = .idle →
      ∃ t, step s = .next t ∧
        t.bufByte (4 * k) = d.extractLsb' 24 8 ∧ t.bufByte (4 * k + 1) = d.extractLsb' 16 8 ∧
        t.bufByte (4 * k + 2) = d.extractLsb' 8 8 ∧ t.bufByte (4 * k + 3) = d.extractLsb' 0 8 ∧
        (∀ i, i < 4 * k ∨ 4 * k + 4 ≤ i → t.bufByte i = s.bufByte i) ∧
        t = { s with inputs := rest, response := some (.write .okay), buf := t.buf })

/-- R139: while BUSY every mapped write but CTRL's only sets WERR; CTRL's is taken; every read is taken. -/
def Obligations.BusyWritesOnlySetWerr : Prop :=
  ∀ (s : State) (p : Pending) (n : Nat) (a : Half) (t : Target) (rest : List Event), s.eng = .busy p n →
    addrTarget s.params a = some t →
    (∀ d, s.inputs = .write a d :: rest → t ≠ .reg .ctrl →
      step s = .next { s with inputs := rest, response := some (.write .okay), werr := true }) ∧
    (∀ d, s.inputs = .write a d :: rest → t = .reg .ctrl →
      step s = .next (State.writeCtrl { s with inputs := rest, response := some (.write .okay) } d)) ∧
    (s.inputs = .read a :: rest → ∃ u d, step s = .next u ∧ u.response = some (.read .okay d))

/-- R23: a write to CTRL in any engine state, CTRL as read, and what IE gates. -/
def Obligations.CtrlWriteSetsIeOrResets : Prop :=
  (∀ (s : State) (d : Word) (rest : List Event), s.inputs = .write 0x0000#16 d :: rest →
    (d.getLsbD 0 = false →
      step s = .next { s with inputs := rest, response := some (.write .okay), ie := d.getLsbD 1 }) ∧
    (d.getLsbD 0 = true → ∃ t, step s = .next t ∧ t.ie = false ∧
      t = State.resetBlock { s with inputs := rest, response := some (.write .okay) })) ∧
  (∀ (s : State) (i : Nat), (s.readReg .ctrl).getLsbD i = (decide (i = 1) && s.ie)) ∧
  (∀ s : State, s.irq = ((s.readReg .ctrl).getLsbD 1 && (s.readReg .status).getLsbD 1))

/-- R24: STATUS as read, and its write-1-to-clear while idle. -/
def Obligations.StatusWordAndWriteOneToClear : Prop :=
  (∀ s : State, ((s.readReg .status).getLsbD 0 = true ↔ s.eng ≠ .idle) ∧ (s.readReg .status).getLsbD 1 = s.done ∧
    (s.readReg .status).getLsbD 2 = s.werr ∧ (s.readReg .status).getLsbD 3 = false ∧
    (s.readReg .status).extractLsb' 4 4 = s.result.code ∧ (s.readReg .status).extractLsb' 8 8 = s.lastOp ∧
    (s.readReg .status).extractLsb' 16 16 = 0#16) ∧
  (∀ (s : State) (d : Word) (rest : List Event), s.eng = .idle → s.inputs = .write 0x0004#16 d :: rest →
    step s = .next { s with inputs := rest, response := some (.write .okay),
                            done := s.done && !d.getLsbD 1, werr := s.werr && !d.getLsbD 2 })

/-- R25: the values STATUS.RESULT can take, in any state, and their names. -/
def Obligations.ResultTakesOnlyItsSixValues : Prop :=
  ∀ s : State,
    (s.readReg .status).extractLsb' 4 4 ∈ [0x0#4, 0x1#4, 0x2#4, 0x3#4, 0x8#4, 0x9#4] ∧
    ((s.readReg .status).extractLsb' 4 4 = 0x0#4 ↔ s.result = .ok) ∧
    ((s.readReg .status).extractLsb' 4 4 = 0x1#4 ↔ s.result = .tooShort) ∧
    ((s.readReg .status).extractLsb' 4 4 = 0x2#4 ↔ s.result = .badChecksum) ∧
    ((s.readReg .status).extractLsb' 4 4 = 0x3#4 ↔ s.result = .unsupportedVersion) ∧
    ((s.readReg .status).extractLsb' 4 4 = 0x8#4 ↔ s.result = .illegalCmd) ∧
    ((s.readReg .status).extractLsb' 4 4 = 0x9#4 ↔ s.result = .lenRange)

/-- R27: CAP, its fields and that no step changes it. -/
def Obligations.CapIsConstant : Prop :=
  (∀ s : State, (s.readReg .cap).extractLsb' 24 8 = 0x01#8 ∧ (s.readReg .cap).extractLsb' 16 8 = 0x01#8 ∧
    ((s.readReg .cap).extractLsb' 0 16).toNat = s.params.bufBytes % 65536 ∧
    (s.params.bufBytes = 64 → s.readReg .cap = 0x01010040#32)) ∧
  (∀ s t : State, step s = .next t → t.params = s.params ∧ t.readReg .cap = s.readReg .cap)

/-! ## Issue, completion, errors -/

/-- R87: an illegal word is rejected, whatever LEN is, and only STATUS and the CMD read-back change. -/
def Obligations.IllegalWordIsRejected : Prop :=
  ∀ (s : State) (w : Word) (rest : List Event), s.eng = .idle → s.inputs = .write 0x0008#16 w :: rest →
    ((opField w = 0x00#8 ∨ 0x07 ≤ (opField w).toNat) ∨ (w.getLsbD 8 = true ∧ opField w ≠ 0x01#8) ∨
      w.extractLsb' 9 23 ≠ 0#23) →
    step s = .next { s with inputs := rest, response := some (.write .okay),
                            cmd := w, result := .illegalCmd, lastOp := opField w, done := true }

/-- R138: a word written to CMD while IDLE is rejected with ILLEGAL_CMD, else rejected with LEN_RANGE, else accepted. -/
def Obligations.CmdWriteIsRejectedOrAccepted : Prop :=
  ∀ (s : State) (w : Word) (rest : List Event), s.eng = .idle → s.inputs = .write 0x0008#16 w :: rest →
    (illegalWord w →
      step s = .next { s with inputs := rest, response := some (.write .okay),
                              cmd := w, result := .illegalCmd, lastOp := opField w, done := true }) ∧
    (¬ illegalWord w → (opField w = 0x01#8 ∨ opField w = 0x05#8) → s.params.bufBytes < s.regs.len.toNat →
      step s = .next { s with inputs := rest, response := some (.write .okay),
                              cmd := w, result := .lenRange, lastOp := opField w, done := true }) ∧
    (¬ illegalWord w → ¬ ((opField w = 0x01#8 ∨ opField w = 0x05#8) ∧ s.params.bufBytes < s.regs.len.toNat) →
      ∃ t, step s = .next t ∧ t.cmd = w ∧ t.busy = true ∧ t.done = false ∧ t.result = s.result ∧
        t.lastOp = s.lastOp ∧ t.regs = s.regs ∧ t.buf = s.buf ∧ t.response = some (.write .okay))

/-- R160: acceptance, and the completion after LATENCY engine steps, LATENCY being any number from 1. -/
def Obligations.AcceptedCommandHoldsItsPendingResult : Prop :=
  ∀ (s : State) (i : Instr) (rest : List Event), s.eng = .idle →
    s.inputs = .write 0x0008#16 (encode i) :: rest →
    (Instr.checksLen i = true → s.regs.len.toNat ≤ s.params.bufBytes) →
    ∃ n u, step s = .next u ∧
      u = { s with inputs := rest, response := some (.write .okay), cmd := encode i, done := false,
                   eng := .busy ⟨i, commandResult i s⟩ (n + 1), draws := s.draws + 1, latencies := s.latencies.tail } ∧
      (∀ m ls, s.latencies = m :: ls → n = m) ∧
      (∀ m, m ≤ n → (State.engineTicks m u).busy = true) ∧
      State.engineTicks (n + 1) u = u.complete ∧ u.complete.busy = false

/-- R137: the completion event, register by register and byte by byte. -/
def Obligations.CompletionAppliesThePendingResult : Prop :=
  ∀ (s : State) (p : Pending) (rest : List Event), s.eng = .busy p 1 →
    s.inputs = .engine :: rest →
    ∃ t, step s = .next t ∧
      (∀ r v, EngWrite.reg r v ∈ p.res.writes → (∀ v', EngWrite.reg r v' ∈ p.res.writes → v' = v) →
        (t.readReg (.data r)).toNat = v.toNat % 2 ^ r.width) ∧
      (∀ r, (∀ v, EngWrite.reg r v ∉ p.res.writes) → t.readReg (.data r) = s.readReg (.data r)) ∧
      (∀ i b, EngWrite.buf i b ∈ p.res.writes → (∀ b', EngWrite.buf i b' ∈ p.res.writes → b' = b) →
        t.bufByte i = b) ∧
      (∀ i, (∀ b, EngWrite.buf i b ∉ p.res.writes) → t.bufByte i = s.bufByte i) ∧
      t.busy = false ∧
      t = { s with inputs := rest, regs := t.regs, buf := t.buf, result := p.res.code,
                   lastOp := opField (encode p.instr), done := true, eng := .idle }

/-- R160, R170: with no more accesses to come, a command in flight completes in as many steps as its latency has left.
That a step with no event to come is an engine step is the model's choice (log 2). -/
def Obligations.CommandInFlightCompletes : Prop :=
  ∀ (s : State) (p : Pending) (n : Nat), s.eng = .busy p (n + 1) → s.inputs = [] →
    Host.Core.run Sys2Proof.core (n + 1) s = .next s.complete

/-- R135: no command and no step stops the block, in any state. -/
def Obligations.NothingStopsTheBlock : Prop :=
  ∀ s : State, (∃ t, step s = .next t) ∧ ∀ i, ∃ t, exec i s = .next t

/-- R139, R137, R14 (92_eei_decisions.md D17): what the host does while BUSY, short of a reset, changes no result.
WAIT loops are left out because they are not single accesses. -/
def Obligations.HostCannotDisturbTheCommandInFlight : Prop :=
  ∀ (s : State) (p : Pending) (n : Nat) (evs rest : List Event),
    s.eng = .busy p (n + 1) → s.inputs = evs ++ .engine :: rest →
    (∀ e, e ∈ evs → e.isReset = false ∧ e.isWait = false) → (evs.filter Event.isEngine).length = n →
    ∃ t, Host.Core.run Sys2Proof.core (evs.length + 1) s = .next t ∧ t.inputs = rest ∧ t.eng = .idle ∧
      t.regs = s.complete.regs ∧ t.buf = s.complete.buf ∧ t.bufSeed = s.bufSeed ∧ t.params = s.params ∧
      t.result = p.res.code ∧ t.lastOp = p.instr.op ∧ t.done = true ∧ t.cmd = s.cmd ∧
      (t.werr = true ↔ s.werr = true ∨
        ∃ a d, Event.write a d ∈ evs ∧ a ≠ 0x0000#16 ∧ addrTarget s.params a ≠ none)

/-- R143: IRQ as a level, and the events that clear it. -/
def Obligations.IrqIsALevel : Prop :=
  (∀ s : State, s.irq = true ↔ s.ie = true ∧ s.done = true) ∧
  (∀ (s t : State) (d : Word) (rest : List Event), step s = .next t →
    (s.eng = .idle → s.inputs = .write 0x0004#16 d :: rest → d.getLsbD 1 = true → t.irq = false) ∧
    (s.inputs = .write 0x0008#16 d :: rest → s.busy = false → t.busy = true → t.irq = false) ∧
    (s.inputs = .write 0x0000#16 d :: rest → d.getLsbD 1 = false → t.irq = false) ∧
    (s.resetsNext = true → t.irq = false))

/-- R142, R24, R42: DONE rises only by a completion or a rejection, and IRQ only by that or by setting IE. -/
def Obligations.DoneAndIrqRiseOnlyByTheirCauses : Prop :=
  ∀ s t : State, step s = .next t →
    (s.done = false → t.done = true →
      (∃ i, s.completesNext i) ∨
      (s.eng = .idle ∧ t.eng = .idle ∧ (t.result = .illegalCmd ∨ t.result = .lenRange) ∧
        ∃ w rest, s.inputs = .write 0x0008#16 w :: rest ∧ t.cmd = w)) ∧
    (s.irq = false → t.irq = true →
      (s.done = false ∧ t.done = true) ∨
      (∃ d rest, s.inputs = .write 0x0000#16 d :: rest ∧ d.getLsbD 1 = true ∧ d.getLsbD 0 = false))

/-! ## Who writes what -/

/-- R28 to R32, R34 to R37, R166: every operand, result and field register changes only by its writers. The payload
registers change by DECODE only when the frame's type is DATA (R113). -/
def Obligations.RegistersChangeOnlyByTheirWriters : Prop :=
  ∀ s t : State, s.Inv → step s = .next t → s.resetsNext = false →
    ((t.regs.seqRes ≠ s.regs.seqRes ∨ t.regs.seqLoss ≠ s.regs.seqLoss) → s.completesNext .classify) ∧
    ((t.regs.fldVer ≠ s.regs.fldVer ∨ t.regs.fldType ≠ s.regs.fldType ∨ t.regs.fldCsum ≠ s.regs.fldCsum) →
      s.completesNext .decode ∧ t.result = .ok) ∧
    (t.regs.seqLast ≠ s.regs.seqLast → s.eng = .idle ∧ ∃ d rest, s.inputs = .write 0x0018#16 d :: rest) ∧
    (t.regs.seqIn ≠ s.regs.seqIn → s.eng = .idle ∧ ∃ d rest, s.inputs = .write 0x001C#16 d :: rest) ∧
    (t.regs.crcOut ≠ s.regs.crcOut → ∃ i, i ≠ .classify ∧ s.completesNext i) ∧
    (t.regs.len ≠ s.regs.len →
      (s.eng = .idle ∧ ∃ d rest, s.inputs = .write 0x0010#16 d :: rest) ∨
      s.completesNext .encData ∨ s.completesNext .encAck ∨ s.completesNext .encHb) ∧
    (∀ f, f ∈ [(DataReg.fldDevid, 0x0048#16), (.fldSeq, 0x004C#16), (.fldFlags, 0x0054#16)] →
      t.readReg (.data f.1) ≠ s.readReg (.data f.1) →
      (s.eng = .idle ∧ ∃ d rest, s.inputs = .write f.2 d :: rest) ∨ (s.completesNext .decode ∧ t.result = .ok)) ∧
    (∀ f, f ∈ [(DataReg.fldLat, 0x0058#16), (.fldLon, 0x005C#16), (.fldAlt, 0x0060#16), (.fldTs, 0x0064#16),
        (.fldSpeed, 0x0068#16), (.fldHeading, 0x006C#16), (.fldBatt, 0x0070#16), (.fldStatus, 0x0074#16)] →
      t.readReg (.data f.1) ≠ s.readReg (.data f.1) →
      (s.eng = .idle ∧ ∃ d rest, s.inputs = .write f.2 d :: rest) ∨
      (s.completesNext .decode ∧ t.result = .ok ∧ s.bufByte 1 = s.params.mtData))

/-- R40, R67, R109: a byte of BUF changes only by an idle window write to its word or by the completion of an encoder
whose frame holds it. -/
def Obligations.BufChangesOnlyByWindowOrEncoder : Prop :=
  ∀ (s t : State) (i : Nat), s.Inv → step s = .next t → s.resetsNext = false → t.bufByte i ≠ s.bufByte i →
    (s.eng = .idle ∧ ∃ a d rest, s.inputs = .write a d :: rest ∧ addrTarget s.params a = some (.window (i / 4))) ∨
    (∃ e, e ∈ encoders ∧ i < e.2 ∧ s.completesNext e.1)

/-! ## CRC-16 -/

/-- R96: the empty sequence, one byte more, and what one byte does: XOR into the low bits, eight conditional shifts. -/
def Obligations.Crc16GoesByteByByte : Prop :=
  crc16 [] = 0xFFFF#16 ∧ (∀ (s : List Byte) (b : Byte), crc16 (s ++ [b]) = crcByte (crc16 s) b) ∧
  (∀ (r : Half) (b : Byte),
    crcByte r b = Nat.iterate (fun v => if v.getLsbD 0 then (v >>> 1) ^^^ 0xA001#16 else v >>> 1) 8
      (r ^^^ b.setWidth 16)) ∧
  (∀ s t : List Byte, crc16 (s ++ t) = t.foldl crcByte (crc16 s))

/-- R98: the frame checksum is the CRC-16 with bytes 6 and 7 taken as 0. -/
def Obligations.FrameChecksumZeroesItsField : Prop :=
  ∀ s : List Byte, fcrc s = crc16 (s.mapIdx (fun i b => if i = 6 ∨ i = 7 then 0x00#8 else b))

/-- R97: CRC and CRC.Z. -/
def Obligations.CrcWritesTheChecksumOfTheBuffer : Prop :=
  ∀ (z : Bool) (s : State), s.eng = .idle →
    (s.regs.len.toNat ≤ s.params.bufBytes →
      ∃ t, exec (.crc z) s = .next t ∧ t.busy = true ∧
        t.finish = { s with
          cmd := if z then 0x00000101#32 else 0x00000001#32
          regs := { s.regs with crcOut := crc16 ((List.range s.regs.len.toNat).map
            (fun i => if z = true ∧ (i = 6 ∨ i = 7) then 0x00#8 else s.bufByte i)) }
          result := .ok, lastOp := 0x01#8, done := true, draws := s.draws + 1, latencies := s.latencies.tail }) ∧
    (s.params.bufBytes < s.regs.len.toNat →
      exec (.crc z) s = .next { s with
        cmd := if z then 0x00000101#32 else 0x00000001#32
        result := .lenRange, lastOp := 0x01#8, done := true })

/-! ## Encoders -/

/-- R77: every encoded frame holds its own frame checksum, big-endian, in bytes 6 and 7. -/
def Obligations.EncodedFrameHoldsItsChecksum : Prop :=
  ∀ (t : Byte) (dev seq fl : Half) (p : List Byte),
    (frame t dev seq fl p)[6]? = some (hi8 (fcrc (frame t dev seq fl p))) ∧
    (frame t dev seq fl p)[7]? = some (lo8 (fcrc (frame t dev seq fl p)))

/-- R106: ENC_DATA, the frame written out by bit slices. -/
def Obligations.EncDataWritesTheDataFrame : Prop :=
  ∀ s : State, s.eng = .idle →
    ∃ t u f, exec .encData s = .next t ∧ t.busy = true ∧ t.finish = u ∧
      f = wireFrame s.params.mtData s.regs.fldDevid s.regs.fldSeq s.regs.fldFlags (wirePayload s.regs) ∧
      f.length = 30 ∧ (∀ i, u.bufByte i = if i < 30 then f.getD i 0x00#8 else s.bufByte i) ∧
      u = { s with
        cmd := 0x00000002#32, buf := u.buf
        regs := { s.regs with
          len := 30#16
          crcOut := crc16 (wireHeader s.params.mtData s.regs.fldDevid s.regs.fldSeq 0x0000#16 s.regs.fldFlags
            ++ wirePayload s.regs) }
        result := .ok, lastOp := 0x02#8, done := true, draws := s.draws + 1, latencies := s.latencies.tail }

/-- R107: ENC_ACK, its flags 0 whatever FLD_FLAGS holds. -/
def Obligations.EncAckWritesTheAckFrame : Prop :=
  ∀ s : State, s.eng = .idle →
    ∃ t u f, exec .encAck s = .next t ∧ t.busy = true ∧ t.finish = u ∧
      f = wireFrame s.params.mtAck s.regs.fldDevid s.regs.fldSeq 0x0000#16 [] ∧
      f.length = 10 ∧ (∀ i, u.bufByte i = if i < 10 then f.getD i 0x00#8 else s.bufByte i) ∧
      u = { s with
        cmd := 0x00000003#32, buf := u.buf
        regs := { s.regs with
          len := 10#16
          crcOut := crc16 (wireHeader s.params.mtAck s.regs.fldDevid s.regs.fldSeq 0x0000#16 0x0000#16) }
        result := .ok, lastOp := 0x03#8, done := true, draws := s.draws + 1, latencies := s.latencies.tail }

/-- R108: ENC_HB, its flags those of FLD_FLAGS. -/
def Obligations.EncHbWritesTheHeartbeatFrame : Prop :=
  ∀ s : State, s.eng = .idle →
    ∃ t u f, exec .encHb s = .next t ∧ t.busy = true ∧ t.finish = u ∧
      f = wireFrame s.params.mtHeartbeat s.regs.fldDevid s.regs.fldSeq s.regs.fldFlags [] ∧
      f.length = 10 ∧ (∀ i, u.bufByte i = if i < 10 then f.getD i 0x00#8 else s.bufByte i) ∧
      u = { s with
        cmd := 0x00000004#32, buf := u.buf
        regs := { s.regs with
          len := 10#16
          crcOut := crc16 (wireHeader s.params.mtHeartbeat s.regs.fldDevid s.regs.fldSeq 0x0000#16 s.regs.fldFlags) }
        result := .ok, lastOp := 0x04#8, done := true, draws := s.draws + 1, latencies := s.latencies.tail }

/-- R109: what the encoders leave alone, and that the frame and checksum depend on the field registers alone. -/
def Obligations.EncodersWriteOnlyTheirFrame : Prop :=
  ∀ e, e ∈ encoders → ∀ s : State, s.eng = .idle →
    ∃ t, exec e.1 s = .next t ∧ t.finish.regs.len.toNat = e.2 ∧
      (∀ i, e.2 ≤ i → t.finish.bufByte i = s.bufByte i) ∧
      (∀ r, r ≠ .len → r ≠ .crcOut → t.finish.readReg (.data r) = s.readReg (.data r)) ∧
      t.finish.ie = s.ie ∧ t.finish.werr = s.werr ∧ t.finish.params = s.params ∧
      (∀ s' t' : State, s'.eng = .idle → s'.params = s.params →
        (∀ r, r ∈ fieldRegs → s'.readReg (.data r) = s.readReg (.data r)) → exec e.1 s' = .next t' →
        t'.finish.regs.crcOut = t.finish.regs.crcOut ∧ ∀ i, i < e.2 → t'.finish.bufByte i = t.finish.bufByte i)

/-! ## DECODE -/

/-- R111: the checks of DECODE in their order. -/
def Obligations.DecodeChecksInOrder : Prop :=
  ∀ s : State, s.eng = .idle →
    (s.params.bufBytes < s.regs.len.toNat →
      exec .decode s = .next { s with cmd := 0x00000005#32, result := .lenRange, lastOp := 0x05#8, done := true }) ∧
    (s.regs.len.toNat ≤ s.params.bufBytes →
      ∃ t, exec .decode s = .next t ∧ t.busy = true ∧ t.finish.eng = .idle ∧ t.finish.done = true ∧
        t.finish.lastOp = 0x05#8 ∧
        t.finish.result =
          (if s.regs.len.toNat < 10 then .tooShort
           else if fcrc (s.bufSeq 0 s.regs.len.toNat) ≠ s.buf16 6 then .badChecksum
           else if s.bufByte 0 ≠ 0x01#8 then .unsupportedVersion
           else if s.bufByte 1 = s.params.mtData ∧ s.regs.len.toNat < 30 then .tooShort
           else .ok))

/-- R112, R113: what a successful DECODE writes, for every type byte. -/
def Obligations.DecodeOkWritesTheFields : Prop :=
  ∀ s : State, s.eng = .idle → s.regs.len.toNat ≤ s.params.bufBytes → 10 ≤ s.regs.len.toNat →
    fcrc (s.bufSeq 0 s.regs.len.toNat) = s.buf16 6 → s.bufByte 0 = 0x01#8 →
    (s.bufByte 1 = s.params.mtData → 30 ≤ s.regs.len.toNat) →
    ∃ t, exec .decode s = .next t ∧ t.busy = true ∧
      t.finish = { s with
        cmd := 0x00000005#32
        regs := if s.bufByte 1 = s.params.mtData then
            { s.regs with
              crcOut := s.buf16 6, fldVer := 0x01#8, fldType := s.bufByte 1, fldDevid := s.buf16 2
              fldSeq := s.buf16 4, fldCsum := s.buf16 6, fldFlags := s.buf16 8, fldLat := s.buf32 10
              fldLon := s.buf32 14, fldAlt := s.buf16 18, fldTs := s.buf32 20, fldSpeed := s.buf16 24
              fldHeading := s.buf16 26, fldBatt := s.bufByte 28, fldStatus := s.bufByte 29 }
          else
            { s.regs with
              crcOut := s.buf16 6, fldVer := 0x01#8, fldType := s.bufByte 1, fldDevid := s.buf16 2
              fldSeq := s.buf16 4, fldCsum := s.buf16 6, fldFlags := s.buf16 8 }
        result := .ok, lastOp := 0x05#8, done := true, draws := s.draws + 1, latencies := s.latencies.tail }

/-- R114: a DECODE that fails writes no field register, and CRC_OUT exactly when LEN ≥ 10. -/
def Obligations.DecodeFailureKeepsTheFields : Prop :=
  ∀ s : State, s.eng = .idle → s.regs.len.toNat ≤ s.params.bufBytes →
    ∃ t, exec .decode s = .next t ∧ t.busy = true ∧
      (t.finish.result ≠ .ok →
        t.finish = { s with
          cmd := 0x00000005#32
          regs := { s.regs with
            crcOut := if s.regs.len.toNat < 10 then s.regs.crcOut else fcrc (s.bufSeq 0 s.regs.len.toNat) }
          result := t.finish.result, lastOp := 0x05#8, done := true
          draws := s.draws + 1, latencies := s.latencies.tail }) ∧
      (10 ≤ s.regs.len.toNat → t.finish.regs.crcOut = fcrc (s.bufSeq 0 s.regs.len.toNat))

/-- R40: CRC and DECODE do not depend on the bytes of BUF from LEN on. -/
def Obligations.BytesPastLenDoNotMatter : Prop :=
  ∀ s t : State, t.params = s.params → t.regs = s.regs →
    (∀ i, i < s.regs.len.toNat → t.bufByte i = s.bufByte i) →
    (∀ z, commandResult (.crc z) t = commandResult (.crc z) s) ∧ commandResult .decode t = commandResult .decode s

/-- R118: the round trip of each encoder through DECODE. -/
def Obligations.EncodeThenDecodeRecoversTheFields : Prop :=
  ∀ s : State, s.eng = .idle → s.params.wf = true →
    (∃ t v, exec .encData s = .next t ∧ exec .decode t.finish = .next v ∧ v.finish.result = .ok ∧
      v.finish.regs = { s.regs with
        len := 30#16, crcOut := t.finish.regs.crcOut, fldVer := 0x01#8, fldType := s.params.mtData
        fldCsum := t.finish.regs.crcOut }) ∧
    (∃ t v, exec .encAck s = .next t ∧ exec .decode t.finish = .next v ∧ v.finish.result = .ok ∧
      v.finish.regs = { s.regs with
        len := 10#16, crcOut := t.finish.regs.crcOut, fldVer := 0x01#8, fldType := s.params.mtAck
        fldCsum := t.finish.regs.crcOut, fldFlags := 0x0000#16 }) ∧
    (∃ t v, exec .encHb s = .next t ∧ exec .decode t.finish = .next v ∧ v.finish.result = .ok ∧
      v.finish.regs = { s.regs with
        len := 10#16, crcOut := t.finish.regs.crcOut, fldVer := 0x01#8, fldType := s.params.mtHeartbeat
        fldCsum := t.finish.regs.crcOut })

/-- R100: any single-bit change of a valid frame makes DECODE report BAD_CHECKSUM, and the fields are kept. -/
def Obligations.SingleBitFlipIsDetected : Prop :=
  ∀ (s : State) (k j : Nat), s.eng = .idle → 10 ≤ s.regs.len.toNat → s.regs.len.toNat ≤ s.params.bufBytes →
    fcrc (s.bufSeq 0 s.regs.len.toNat) = s.buf16 6 → k < s.regs.len.toNat → j < 8 →
    ∃ t, exec .decode (s.setBuf k (s.bufByte k ^^^ (0x01#8 <<< j))) = .next t ∧ t.finish.result = .badChecksum ∧
      ∀ r, r ∈ fieldRegs → t.finish.readReg (.data r) = s.readReg (.data r)

/-- R165: ENC_ACK right after a DECODE that reports OK echoes the device id and sequence number received. -/
def Obligations.AckAfterDecodeEchoes : Prop :=
  ∀ s t : State, s.eng = .idle → exec .decode s = .next t → t.finish.result = .ok → t.busy = true →
    ∃ v, exec .encAck t.finish = .next v ∧ (∀ i, 2 ≤ i → i < 6 → v.finish.bufByte i = s.bufByte i) ∧
      v.finish.bufByte 1 = s.params.mtAck

/-! ## CLASSIFY -/

/-- R126 to R129: CLASSIFY, in exact arithmetic. -/
def Obligations.ClassifyReportsTheVerdict : Prop :=
  ∀ (s : State) (d : Nat), s.eng = .idle → d = (s.regs.seqIn.toNat + 65536 - s.regs.seqLast.toNat) % 65536 →
    ∃ t u, exec .classify s = .next t ∧ t.busy = true ∧ t.finish = u ∧
      u.regs.seqRes.toNat = (if 0 < d ∧ d < 32768 then 65536 else 0) + d ∧
      u.regs.seqLoss.toNat = (if 0 < d ∧ d < 32768 then d - 1 else 0) ∧
      u = { s with
        cmd := 0x00000006#32
        regs := { s.regs with seqRes := u.regs.seqRes, seqLoss := u.regs.seqLoss }
        result := .ok, lastOp := 0x06#8, done := true, draws := s.draws + 1, latencies := s.latencies.tail }

/-- R131: the two directions of two different numbers. -/
def Obligations.TwoDirectionsOfTheRing : Prop :=
  ∀ a b : Half, a ≠ b →
    (ringDist a b).toNat + (ringDist b a).toNat = 65536 ∧
    ¬ (isFresh (ringDist a b) = true ∧ isFresh (ringDist b a) = true) ∧
    ((isFresh (ringDist a b) = false ∧ isFresh (ringDist b a) = false) ↔ (ringDist a b).toNat = 32768)

/-- R132: a replay of a number just accepted is Stale with distance 0. -/
def Obligations.ReplayIsStale : Prop :=
  ∀ s t : State, s.eng = .idle → exec .classify s = .next t → t.finish.regs.seqRes.getLsbD 16 = true →
    ∃ v, exec .classify (t.finish.setReg .seqLast (s.regs.seqIn.setWidth 32)) = .next v ∧
      v.finish.regs.seqRes = 0#17 ∧ v.finish.regs.seqLoss = 0#16

/-! ## Host programs -/

/-- R91 (WRBUF): the bytes land in BUF from byte n, the rest of the last word is 0, nothing else changes.
The bytes fit into BUF, so no address wraps (log 15). The response of the last access is the model's own field (log 6). -/
def Obligations.WrbufFillsTheBuffer : Prop :=
  ∀ (s : State) (n : Nat) (bytes : List Byte) (rest : List Event), s.eng = .idle → s.params.wf = true →
    n % 4 = 0 → n + bytes.length ≤ s.params.bufBytes → s.inputs = (HostOp.wrbuf n bytes).expand ++ rest →
    ∃ t, Host.Core.run Sys2Proof.core (HostOp.wrbuf n bytes).expand.length s = .next t ∧
      (∀ i, t.bufByte i =
        if n ≤ i ∧ i < n + bytes.length then bytes.getD (i - n) 0x00#8
        else if n ≤ i ∧ i < n + 4 * ((bytes.length + 3) / 4) then 0x00#8
        else s.bufByte i) ∧
      t = { s with inputs := rest, buf := t.buf, response := t.response }

/-- R91 (WAIT), R62: the host's WAIT ends with a read of STATUS that has BUSY 0, and the command has completed then.
That the engine makes one step between two polls is the model's choice (log 9); the end does not depend on it. -/
def Obligations.WaitEndsAtTheCompletion : Prop :=
  ∀ (s : State) (p : Pending) (n : Nat) (rest : List Event), s.eng = .busy p (n + 1) → s.inputs = .wait :: rest →
    ∃ k d, Host.Core.run Sys2Proof.core k s =
        .next { s.complete with inputs := rest, response := some (.read .okay d) } ∧
      d = s.complete.statusWord ∧ d.getLsbD 0 = false

/-! ## STATUS, CMD and CTRL -/

/-- R26, R42, R144, R23: over every step that is no reset, RESULT and LAST_OP change only by a completion or a
rejection, CMD only when the engine takes a word (accepts or rejects it), BUSY only by an acceptance or a completion,
WERR only by a write ignored while BUSY or an idle write to STATUS, IE only by a write to CTRL; and DONE is cleared only
by an acceptance or an idle write to STATUS. What sets DONE is `DoneAndIrqRiseOnlyByTheirCauses`. -/
def Obligations.StatusCmdAndCtrlChangeOnlyByTheirCauses : Prop :=
  ∀ s t : State, step s = .next t → s.resetsNext = false →
    ((t.result ≠ s.result ∨ t.lastOp ≠ s.lastOp) →
      (∃ i, s.completesNext i ∧ t.lastOp = i.op) ∨
      (s.eng = .idle ∧ t.eng = .idle ∧ (t.result = .illegalCmd ∨ t.result = .lenRange) ∧
        ∃ w rest, s.inputs = .write 0x0008#16 w :: rest ∧ t.lastOp = opField w)) ∧
    (t.cmd ≠ s.cmd → s.eng = .idle ∧ ∃ w rest, s.inputs = .write 0x0008#16 w :: rest ∧ t.cmd = w ∧
      (t.busy = true ∨ t.result = .illegalCmd ∨ t.result = .lenRange)) ∧
    (t.busy ≠ s.busy →
      (s.eng = .idle ∧ ∃ w rest, s.inputs = .write 0x0008#16 w :: rest ∧ t.cmd = w) ∨ ∃ i, s.completesNext i) ∧
    (s.werr = false → t.werr = true → s.busy = true ∧ ∃ a d rest, s.inputs = .write a d :: rest ∧ a ≠ 0x0000#16 ∧
      addrTarget s.params a ≠ none) ∧
    (s.werr = true → t.werr = false →
      s.eng = .idle ∧ ∃ d rest, s.inputs = .write 0x0004#16 d :: rest ∧ d.getLsbD 2 = true) ∧
    (s.done = true → t.done = false → s.eng = .idle ∧
      ((∃ d rest, s.inputs = .write 0x0004#16 d :: rest ∧ d.getLsbD 1 = true) ∨
       (∃ w rest, s.inputs = .write 0x0008#16 w :: rest ∧ t.cmd = w ∧ t.busy = true))) ∧
    (t.ie ≠ s.ie → ∃ d rest, s.inputs = .write 0x0000#16 d :: rest ∧ t.ie = d.getLsbD 1)
end

