-- ==== Sys2Proof/Laws/State.lean ====
section
/-! SUPPORT. One lemma per field per update of the state, so that no later proof unfolds a record update. -/

namespace Sys2Proof.Machine

variable (s : State)

/-! ## respond -/

@[simp] theorem State.respond_ie (r : BusResponse) : (s.respond r).ie = s.ie := rfl
@[simp] theorem State.respond_done (r : BusResponse) : (s.respond r).done = s.done := rfl
@[simp] theorem State.respond_werr (r : BusResponse) : (s.respond r).werr = s.werr := rfl
@[simp] theorem State.respond_result (r : BusResponse) : (s.respond r).result = s.result := rfl
@[simp] theorem State.respond_lastOp (r : BusResponse) : (s.respond r).lastOp = s.lastOp := rfl
@[simp] theorem State.respond_cmd (r : BusResponse) : (s.respond r).cmd = s.cmd := rfl
@[simp] theorem State.respond_regs (r : BusResponse) : (s.respond r).regs = s.regs := rfl
@[simp] theorem State.respond_buf (r : BusResponse) : (s.respond r).buf = s.buf := rfl
@[simp] theorem State.respond_eng (r : BusResponse) : (s.respond r).eng = s.eng := rfl
@[simp] theorem State.respond_params (r : BusResponse) : (s.respond r).params = s.params := rfl
@[simp] theorem State.respond_bufSeed (r : BusResponse) : (s.respond r).bufSeed = s.bufSeed := rfl
@[simp] theorem State.respond_draws (r : BusResponse) : (s.respond r).draws = s.draws := rfl
@[simp] theorem State.respond_latencies (r : BusResponse) : (s.respond r).latencies = s.latencies := rfl
@[simp] theorem State.respond_inputs (r : BusResponse) : (s.respond r).inputs = s.inputs := rfl
@[simp] theorem State.respond_response (r : BusResponse) : (s.respond r).response = some r := rfl

/-! ## popInput -/

@[simp] theorem State.popInput_ie : (s.popInput).ie = s.ie := rfl
@[simp] theorem State.popInput_done : (s.popInput).done = s.done := rfl
@[simp] theorem State.popInput_werr : (s.popInput).werr = s.werr := rfl
@[simp] theorem State.popInput_result : (s.popInput).result = s.result := rfl
@[simp] theorem State.popInput_lastOp : (s.popInput).lastOp = s.lastOp := rfl
@[simp] theorem State.popInput_cmd : (s.popInput).cmd = s.cmd := rfl
@[simp] theorem State.popInput_regs : (s.popInput).regs = s.regs := rfl
@[simp] theorem State.popInput_buf : (s.popInput).buf = s.buf := rfl
@[simp] theorem State.popInput_eng : (s.popInput).eng = s.eng := rfl
@[simp] theorem State.popInput_params : (s.popInput).params = s.params := rfl
@[simp] theorem State.popInput_bufSeed : (s.popInput).bufSeed = s.bufSeed := rfl
@[simp] theorem State.popInput_draws : (s.popInput).draws = s.draws := rfl
@[simp] theorem State.popInput_latencies : (s.popInput).latencies = s.latencies := rfl
@[simp] theorem State.popInput_inputs : (s.popInput).inputs = s.inputs.tail := rfl
@[simp] theorem State.popInput_response : (s.popInput).response = s.response := rfl

/-! ## ignoreWrite -/

@[simp] theorem State.ignoreWrite_ie : (s.ignoreWrite).ie = s.ie := rfl
@[simp] theorem State.ignoreWrite_done : (s.ignoreWrite).done = s.done := rfl
@[simp] theorem State.ignoreWrite_werr : (s.ignoreWrite).werr = true := rfl
@[simp] theorem State.ignoreWrite_result : (s.ignoreWrite).result = s.result := rfl
@[simp] theorem State.ignoreWrite_lastOp : (s.ignoreWrite).lastOp = s.lastOp := rfl
@[simp] theorem State.ignoreWrite_cmd : (s.ignoreWrite).cmd = s.cmd := rfl
@[simp] theorem State.ignoreWrite_regs : (s.ignoreWrite).regs = s.regs := rfl
@[simp] theorem State.ignoreWrite_buf : (s.ignoreWrite).buf = s.buf := rfl
@[simp] theorem State.ignoreWrite_eng : (s.ignoreWrite).eng = s.eng := rfl
@[simp] theorem State.ignoreWrite_params : (s.ignoreWrite).params = s.params := rfl
@[simp] theorem State.ignoreWrite_bufSeed : (s.ignoreWrite).bufSeed = s.bufSeed := rfl
@[simp] theorem State.ignoreWrite_draws : (s.ignoreWrite).draws = s.draws := rfl
@[simp] theorem State.ignoreWrite_latencies : (s.ignoreWrite).latencies = s.latencies := rfl
@[simp] theorem State.ignoreWrite_inputs : (s.ignoreWrite).inputs = s.inputs := rfl
@[simp] theorem State.ignoreWrite_response : (s.ignoreWrite).response = s.response := rfl

/-! ## reject -/

@[simp] theorem State.reject_ie (w : Word) (c : ResultCode) : (s.reject w c).ie = s.ie := rfl
@[simp] theorem State.reject_done (w : Word) (c : ResultCode) : (s.reject w c).done = true := rfl
@[simp] theorem State.reject_werr (w : Word) (c : ResultCode) : (s.reject w c).werr = s.werr := rfl
@[simp] theorem State.reject_result (w : Word) (c : ResultCode) : (s.reject w c).result = c := rfl
@[simp] theorem State.reject_lastOp (w : Word) (c : ResultCode) : (s.reject w c).lastOp = opField w := rfl
@[simp] theorem State.reject_cmd (w : Word) (c : ResultCode) : (s.reject w c).cmd = w := rfl
@[simp] theorem State.reject_regs (w : Word) (c : ResultCode) : (s.reject w c).regs = s.regs := rfl
@[simp] theorem State.reject_buf (w : Word) (c : ResultCode) : (s.reject w c).buf = s.buf := rfl
@[simp] theorem State.reject_eng (w : Word) (c : ResultCode) : (s.reject w c).eng = s.eng := rfl
@[simp] theorem State.reject_params (w : Word) (c : ResultCode) : (s.reject w c).params = s.params := rfl
@[simp] theorem State.reject_bufSeed (w : Word) (c : ResultCode) : (s.reject w c).bufSeed = s.bufSeed := rfl
@[simp] theorem State.reject_draws (w : Word) (c : ResultCode) : (s.reject w c).draws = s.draws := rfl
@[simp] theorem State.reject_latencies (w : Word) (c : ResultCode) : (s.reject w c).latencies = s.latencies := rfl
@[simp] theorem State.reject_inputs (w : Word) (c : ResultCode) : (s.reject w c).inputs = s.inputs := rfl
@[simp] theorem State.reject_response (w : Word) (c : ResultCode) : (s.reject w c).response = s.response := rfl

/-! ## accept -/

@[simp] theorem State.accept_ie (i : Instr) (r : CmdResult) : (s.accept i r).ie = s.ie := rfl
@[simp] theorem State.accept_done (i : Instr) (r : CmdResult) : (s.accept i r).done = false := rfl
@[simp] theorem State.accept_werr (i : Instr) (r : CmdResult) : (s.accept i r).werr = s.werr := rfl
@[simp] theorem State.accept_result (i : Instr) (r : CmdResult) : (s.accept i r).result = s.result := rfl
@[simp] theorem State.accept_lastOp (i : Instr) (r : CmdResult) : (s.accept i r).lastOp = s.lastOp := rfl
@[simp] theorem State.accept_cmd (i : Instr) (r : CmdResult) : (s.accept i r).cmd = encode i := rfl
@[simp] theorem State.accept_regs (i : Instr) (r : CmdResult) : (s.accept i r).regs = s.regs := rfl
@[simp] theorem State.accept_buf (i : Instr) (r : CmdResult) : (s.accept i r).buf = s.buf := rfl
@[simp] theorem State.accept_eng (i : Instr) (r : CmdResult) : (s.accept i r).eng = .busy ⟨i, r⟩ (s.nextLatency + 1) := rfl
@[simp] theorem State.accept_params (i : Instr) (r : CmdResult) : (s.accept i r).params = s.params := rfl
@[simp] theorem State.accept_bufSeed (i : Instr) (r : CmdResult) : (s.accept i r).bufSeed = s.bufSeed := rfl
@[simp] theorem State.accept_draws (i : Instr) (r : CmdResult) : (s.accept i r).draws = s.draws + 1 := rfl
@[simp] theorem State.accept_latencies (i : Instr) (r : CmdResult) : (s.accept i r).latencies = s.latencies.tail := rfl
@[simp] theorem State.accept_inputs (i : Instr) (r : CmdResult) : (s.accept i r).inputs = s.inputs := rfl
@[simp] theorem State.accept_response (i : Instr) (r : CmdResult) : (s.accept i r).response = s.response := rfl

/-! ## clearFlags -/

@[simp] theorem State.clearFlags_ie (d : Word) : (s.clearFlags d).ie = s.ie := rfl
@[simp] theorem State.clearFlags_done (d : Word) : (s.clearFlags d).done = (s.done && !d.getLsbD 1) := rfl
@[simp] theorem State.clearFlags_werr (d : Word) : (s.clearFlags d).werr = (s.werr && !d.getLsbD 2) := rfl
@[simp] theorem State.clearFlags_result (d : Word) : (s.clearFlags d).result = s.result := rfl
@[simp] theorem State.clearFlags_lastOp (d : Word) : (s.clearFlags d).lastOp = s.lastOp := rfl
@[simp] theorem State.clearFlags_cmd (d : Word) : (s.clearFlags d).cmd = s.cmd := rfl
@[simp] theorem State.clearFlags_regs (d : Word) : (s.clearFlags d).regs = s.regs := rfl
@[simp] theorem State.clearFlags_buf (d : Word) : (s.clearFlags d).buf = s.buf := rfl
@[simp] theorem State.clearFlags_eng (d : Word) : (s.clearFlags d).eng = s.eng := rfl
@[simp] theorem State.clearFlags_params (d : Word) : (s.clearFlags d).params = s.params := rfl
@[simp] theorem State.clearFlags_bufSeed (d : Word) : (s.clearFlags d).bufSeed = s.bufSeed := rfl
@[simp] theorem State.clearFlags_draws (d : Word) : (s.clearFlags d).draws = s.draws := rfl
@[simp] theorem State.clearFlags_latencies (d : Word) : (s.clearFlags d).latencies = s.latencies := rfl
@[simp] theorem State.clearFlags_inputs (d : Word) : (s.clearFlags d).inputs = s.inputs := rfl
@[simp] theorem State.clearFlags_response (d : Word) : (s.clearFlags d).response = s.response := rfl

/-! ## setReg -/

@[simp] theorem State.setReg_ie (r : DataReg) (v : Word) : (s.setReg r v).ie = s.ie := rfl
@[simp] theorem State.setReg_done (r : DataReg) (v : Word) : (s.setReg r v).done = s.done := rfl
@[simp] theorem State.setReg_werr (r : DataReg) (v : Word) : (s.setReg r v).werr = s.werr := rfl
@[simp] theorem State.setReg_result (r : DataReg) (v : Word) : (s.setReg r v).result = s.result := rfl
@[simp] theorem State.setReg_lastOp (r : DataReg) (v : Word) : (s.setReg r v).lastOp = s.lastOp := rfl
@[simp] theorem State.setReg_cmd (r : DataReg) (v : Word) : (s.setReg r v).cmd = s.cmd := rfl
@[simp] theorem State.setReg_regs (r : DataReg) (v : Word) : (s.setReg r v).regs = s.regs.set r v := rfl
@[simp] theorem State.setReg_buf (r : DataReg) (v : Word) : (s.setReg r v).buf = s.buf := rfl
@[simp] theorem State.setReg_eng (r : DataReg) (v : Word) : (s.setReg r v).eng = s.eng := rfl
@[simp] theorem State.setReg_params (r : DataReg) (v : Word) : (s.setReg r v).params = s.params := rfl
@[simp] theorem State.setReg_bufSeed (r : DataReg) (v : Word) : (s.setReg r v).bufSeed = s.bufSeed := rfl
@[simp] theorem State.setReg_draws (r : DataReg) (v : Word) : (s.setReg r v).draws = s.draws := rfl
@[simp] theorem State.setReg_latencies (r : DataReg) (v : Word) : (s.setReg r v).latencies = s.latencies := rfl
@[simp] theorem State.setReg_inputs (r : DataReg) (v : Word) : (s.setReg r v).inputs = s.inputs := rfl
@[simp] theorem State.setReg_response (r : DataReg) (v : Word) : (s.setReg r v).response = s.response := rfl

/-! ## setBuf -/

@[simp] theorem State.setBuf_ie (i : Nat) (b : Byte) : (s.setBuf i b).ie = s.ie := rfl
@[simp] theorem State.setBuf_done (i : Nat) (b : Byte) : (s.setBuf i b).done = s.done := rfl
@[simp] theorem State.setBuf_werr (i : Nat) (b : Byte) : (s.setBuf i b).werr = s.werr := rfl
@[simp] theorem State.setBuf_result (i : Nat) (b : Byte) : (s.setBuf i b).result = s.result := rfl
@[simp] theorem State.setBuf_lastOp (i : Nat) (b : Byte) : (s.setBuf i b).lastOp = s.lastOp := rfl
@[simp] theorem State.setBuf_cmd (i : Nat) (b : Byte) : (s.setBuf i b).cmd = s.cmd := rfl
@[simp] theorem State.setBuf_regs (i : Nat) (b : Byte) : (s.setBuf i b).regs = s.regs := rfl
@[simp] theorem State.setBuf_buf (i : Nat) (b : Byte) : (s.setBuf i b).buf = s.buf.set i b := rfl
@[simp] theorem State.setBuf_eng (i : Nat) (b : Byte) : (s.setBuf i b).eng = s.eng := rfl
@[simp] theorem State.setBuf_params (i : Nat) (b : Byte) : (s.setBuf i b).params = s.params := rfl
@[simp] theorem State.setBuf_bufSeed (i : Nat) (b : Byte) : (s.setBuf i b).bufSeed = s.bufSeed := rfl
@[simp] theorem State.setBuf_draws (i : Nat) (b : Byte) : (s.setBuf i b).draws = s.draws := rfl
@[simp] theorem State.setBuf_latencies (i : Nat) (b : Byte) : (s.setBuf i b).latencies = s.latencies := rfl
@[simp] theorem State.setBuf_inputs (i : Nat) (b : Byte) : (s.setBuf i b).inputs = s.inputs := rfl
@[simp] theorem State.setBuf_response (i : Nat) (b : Byte) : (s.setBuf i b).response = s.response := rfl

/-! ## writeWindow -/

@[simp] theorem State.writeWindow_ie (k : Nat) (d : Word) : (s.writeWindow k d).ie = s.ie := rfl
@[simp] theorem State.writeWindow_done (k : Nat) (d : Word) : (s.writeWindow k d).done = s.done := rfl
@[simp] theorem State.writeWindow_werr (k : Nat) (d : Word) : (s.writeWindow k d).werr = s.werr := rfl
@[simp] theorem State.writeWindow_result (k : Nat) (d : Word) : (s.writeWindow k d).result = s.result := rfl
@[simp] theorem State.writeWindow_lastOp (k : Nat) (d : Word) : (s.writeWindow k d).lastOp = s.lastOp := rfl
@[simp] theorem State.writeWindow_cmd (k : Nat) (d : Word) : (s.writeWindow k d).cmd = s.cmd := rfl
@[simp] theorem State.writeWindow_regs (k : Nat) (d : Word) : (s.writeWindow k d).regs = s.regs := rfl
@[simp] theorem State.writeWindow_buf (k : Nat) (d : Word) : (s.writeWindow k d).buf = s.buf.setBytes (4 * k) [d.extractLsb' 24 8, d.extractLsb' 16 8, d.extractLsb' 8 8, d.extractLsb' 0 8] := rfl
@[simp] theorem State.writeWindow_eng (k : Nat) (d : Word) : (s.writeWindow k d).eng = s.eng := rfl
@[simp] theorem State.writeWindow_params (k : Nat) (d : Word) : (s.writeWindow k d).params = s.params := rfl
@[simp] theorem State.writeWindow_bufSeed (k : Nat) (d : Word) : (s.writeWindow k d).bufSeed = s.bufSeed := rfl
@[simp] theorem State.writeWindow_draws (k : Nat) (d : Word) : (s.writeWindow k d).draws = s.draws := rfl
@[simp] theorem State.writeWindow_latencies (k : Nat) (d : Word) : (s.writeWindow k d).latencies = s.latencies := rfl
@[simp] theorem State.writeWindow_inputs (k : Nat) (d : Word) : (s.writeWindow k d).inputs = s.inputs := rfl
@[simp] theorem State.writeWindow_response (k : Nat) (d : Word) : (s.writeWindow k d).response = s.response := rfl

/-! ## resetBlock -/

@[simp] theorem State.resetBlock_ie : (s.resetBlock).ie = false := rfl
@[simp] theorem State.resetBlock_done : (s.resetBlock).done = false := rfl
@[simp] theorem State.resetBlock_werr : (s.resetBlock).werr = false := rfl
@[simp] theorem State.resetBlock_result : (s.resetBlock).result = .ok := rfl
@[simp] theorem State.resetBlock_lastOp : (s.resetBlock).lastOp = 0#8 := rfl
@[simp] theorem State.resetBlock_cmd : (s.resetBlock).cmd = 0#32 := rfl
@[simp] theorem State.resetBlock_regs : (s.resetBlock).regs = DataRegs.zero := rfl
@[simp] theorem State.resetBlock_buf : (s.resetBlock).buf = [] := rfl
@[simp] theorem State.resetBlock_eng : (s.resetBlock).eng = .idle := rfl
@[simp] theorem State.resetBlock_params : (s.resetBlock).params = s.params := rfl
@[simp] theorem State.resetBlock_bufSeed : (s.resetBlock).bufSeed = s.draws := rfl
@[simp] theorem State.resetBlock_draws : (s.resetBlock).draws = s.draws + 1 := rfl
@[simp] theorem State.resetBlock_latencies : (s.resetBlock).latencies = s.latencies := rfl
@[simp] theorem State.resetBlock_inputs : (s.resetBlock).inputs = s.inputs := rfl
@[simp] theorem State.resetBlock_response : (s.resetBlock).response = s.response := rfl

/-! ## applyWrite, applyWrites: only registers and BUF change -/

@[simp] theorem State.applyWrite_ie (w : EngWrite) : (s.applyWrite w).ie = s.ie := by cases w <;> rfl
@[simp] theorem State.applyWrite_done (w : EngWrite) : (s.applyWrite w).done = s.done := by cases w <;> rfl
@[simp] theorem State.applyWrite_werr (w : EngWrite) : (s.applyWrite w).werr = s.werr := by cases w <;> rfl
@[simp] theorem State.applyWrite_result (w : EngWrite) : (s.applyWrite w).result = s.result := by cases w <;> rfl
@[simp] theorem State.applyWrite_lastOp (w : EngWrite) : (s.applyWrite w).lastOp = s.lastOp := by cases w <;> rfl
@[simp] theorem State.applyWrite_cmd (w : EngWrite) : (s.applyWrite w).cmd = s.cmd := by cases w <;> rfl
@[simp] theorem State.applyWrite_eng (w : EngWrite) : (s.applyWrite w).eng = s.eng := by cases w <;> rfl
@[simp] theorem State.applyWrite_params (w : EngWrite) : (s.applyWrite w).params = s.params := by cases w <;> rfl
@[simp] theorem State.applyWrite_bufSeed (w : EngWrite) : (s.applyWrite w).bufSeed = s.bufSeed := by cases w <;> rfl
@[simp] theorem State.applyWrite_draws (w : EngWrite) : (s.applyWrite w).draws = s.draws := by cases w <;> rfl
@[simp] theorem State.applyWrite_latencies (w : EngWrite) : (s.applyWrite w).latencies = s.latencies := by cases w <;> rfl
@[simp] theorem State.applyWrite_inputs (w : EngWrite) : (s.applyWrite w).inputs = s.inputs := by cases w <;> rfl
@[simp] theorem State.applyWrite_response (w : EngWrite) : (s.applyWrite w).response = s.response := by cases w <;> rfl

@[simp] theorem State.applyWrites_nil : s.applyWrites [] = s := rfl
@[simp] theorem State.applyWrites_cons (w : EngWrite) (ws : List EngWrite) :
    s.applyWrites (w :: ws) = (s.applyWrite w).applyWrites ws := rfl
theorem State.applyWrites_append (ws vs : List EngWrite) :
    s.applyWrites (ws ++ vs) = (s.applyWrites ws).applyWrites vs := List.foldl_append ..

@[simp] theorem State.applyWrites_ie (ws : List EngWrite) : (s.applyWrites ws).ie = s.ie := by
  induction ws generalizing s with
  | nil => rfl
  | cons w ws ih => simp [ih]
@[simp] theorem State.applyWrites_done (ws : List EngWrite) : (s.applyWrites ws).done = s.done := by
  induction ws generalizing s with
  | nil => rfl
  | cons w ws ih => simp [ih]
@[simp] theorem State.applyWrites_werr (ws : List EngWrite) : (s.applyWrites ws).werr = s.werr := by
  induction ws generalizing s with
  | nil => rfl
  | cons w ws ih => simp [ih]
@[simp] theorem State.applyWrites_result (ws : List EngWrite) : (s.applyWrites ws).result = s.result := by
  induction ws generalizing s with
  | nil => rfl
  | cons w ws ih => simp [ih]
@[simp] theorem State.applyWrites_lastOp (ws : List EngWrite) : (s.applyWrites ws).lastOp = s.lastOp := by
  induction ws generalizing s with
  | nil => rfl
  | cons w ws ih => simp [ih]
@[simp] theorem State.applyWrites_cmd (ws : List EngWrite) : (s.applyWrites ws).cmd = s.cmd := by
  induction ws generalizing s with
  | nil => rfl
  | cons w ws ih => simp [ih]
@[simp] theorem State.applyWrites_eng (ws : List EngWrite) : (s.applyWrites ws).eng = s.eng := by
  induction ws generalizing s with
  | nil => rfl
  | cons w ws ih => simp [ih]
@[simp] theorem State.applyWrites_params (ws : List EngWrite) : (s.applyWrites ws).params = s.params := by
  induction ws generalizing s with
  | nil => rfl
  | cons w ws ih => simp [ih]
@[simp] theorem State.applyWrites_bufSeed (ws : List EngWrite) : (s.applyWrites ws).bufSeed = s.bufSeed := by
  induction ws generalizing s with
  | nil => rfl
  | cons w ws ih => simp [ih]
@[simp] theorem State.applyWrites_draws (ws : List EngWrite) : (s.applyWrites ws).draws = s.draws := by
  induction ws generalizing s with
  | nil => rfl
  | cons w ws ih => simp [ih]
@[simp] theorem State.applyWrites_latencies (ws : List EngWrite) : (s.applyWrites ws).latencies = s.latencies := by
  induction ws generalizing s with
  | nil => rfl
  | cons w ws ih => simp [ih]
@[simp] theorem State.applyWrites_inputs (ws : List EngWrite) : (s.applyWrites ws).inputs = s.inputs := by
  induction ws generalizing s with
  | nil => rfl
  | cons w ws ih => simp [ih]
@[simp] theorem State.applyWrites_response (ws : List EngWrite) : (s.applyWrites ws).response = s.response := by
  induction ws generalizing s with
  | nil => rfl
  | cons w ws ih => simp [ih]

/-! ## Derived views of the engine and of the status word -/

@[simp] theorem State.busy_eq_false_iff : s.busy = false ↔ s.eng = .idle := by
  unfold State.busy; cases s.eng <;> simp

theorem State.busy_eq_true_iff : s.busy = true ↔ ∃ p n, s.eng = .busy p n := by
  unfold State.busy; cases s.eng <;> simp

theorem State.busy_of_eng {p : Pending} {n : Nat} (h : s.eng = .busy p n) : s.busy = true := by simp [State.busy, h]
theorem State.busy_of_idle (h : s.eng = .idle) : s.busy = false := by simp [State.busy, h]
theorem State.remaining_of_eng {p : Pending} {n : Nat} (h : s.eng = .busy p n) : s.remaining = n := by
  simp [State.remaining, h]

/-- The completion of a command in flight, said once (R137). -/
theorem State.complete_of_eng {p : Pending} {n : Nat} (h : s.eng = .busy p n) :
    s.complete = { s.applyWrites p.res.writes with
      result := p.res.code, lastOp := opField (encode p.instr), done := true, eng := .idle } := by
  simp [State.complete, h]

theorem State.complete_of_idle (h : s.eng = .idle) : s.complete = s := by simp [State.complete, h]

end Sys2Proof.Machine
end

