-- ==== Sys2Proof/Laws/Memory.lean ====
section
/-! SUPPORT. BUF as memory: read after write, and the canonical form is kept by every operation. -/

namespace Sys2Proof.Machine

theorem Memory.get?_set (m : Memory) (a a' : Nat) (b : Byte) :
    (m.set a b).get? a' = if a' = a then some b else m.get? a' := by
  induction m with
  | nil => simp [Memory.set, Memory.get?, eq_comm]
  | cons c m ih =>
    obtain ⟨k, v⟩ := c
    simp only [Memory.set]
    split
    · simp only [Memory.get?, eq_comm]
    · split
      · subst_vars
        simp only [Memory.get?]
        split <;> simp_all
      · simp only [Memory.get?, ih]
        split <;> split <;> simp_all

theorem Memory.mem_set {m : Memory} {a : Nat} {b : Byte} {c : Host.Cell} (h : c ∈ m.set a b) :
    c = (a, b) ∨ c ∈ m := by
  induction m with
  | nil => simpa [Memory.set] using h
  | cons d m ih =>
    obtain ⟨k, v⟩ := d
    simp only [Memory.set] at h
    split at h
    · simpa using h
    · split at h
      · simp only [List.mem_cons] at h ⊢; tauto
      · simp only [List.mem_cons] at h ⊢
        rcases h with h | h
        · tauto
        · rcases ih h with h | h <;> tauto

/-- A byte write keeps the canonical form. -/
theorem Memory.wf_set {m : Memory} (h : m.wf) (a : Nat) (b : Byte) : (m.set a b).wf := by
  induction m with
  | nil => simp [Memory.wf, Memory.set]
  | cons d m ih =>
    obtain ⟨k, v⟩ := d
    obtain ⟨hk, hm⟩ := List.pairwise_cons.1 h
    simp only [Memory.set]
    split
    · refine List.pairwise_cons.2 ⟨?_, h⟩
      intro c hc
      rcases List.mem_cons.1 hc with rfl | hc
      · assumption
      · have := hk c hc; simp at this ⊢; omega
    · split
      · subst_vars
        exact List.pairwise_cons.2 ⟨hk, hm⟩
      · refine List.pairwise_cons.2 ⟨?_, ih hm⟩
        intro c hc
        rcases Memory.mem_set hc with rfl | hc
        · simp; omega
        · exact hk c hc

theorem Memory.within_set {m : Memory} {n : Nat} (h : m.within n) {a : Nat} (ha : a < n) (b : Byte) :
    (m.set a b).within n := by
  intro c hc
  rcases Memory.mem_set hc with rfl | hc
  · exact ha
  · exact h c hc

/-- The bytes of a block write: inside it the bytes written, outside it what was there. -/
theorem Memory.get?_setBytes (s : List Byte) (m : Memory) (a i : Nat) :
    (m.setBytes a s).get? i = if a ≤ i ∧ i < a + s.length then s[i - a]? else m.get? i := by
  induction s generalizing m a with
  | nil => simp [Memory.setBytes]
  | cons b s ih =>
    rw [Memory.setBytes, ih, Memory.get?_set]
    by_cases h1 : a + 1 ≤ i ∧ i < a + 1 + s.length
    · have h2 : a ≤ i ∧ i < a + (b :: s).length := by simp only [List.length_cons]; omega
      have h3 : i - a = i - (a + 1) + 1 := by omega
      rw [if_pos h1, if_pos h2, h3, List.getElem?_cons_succ]
    · rw [if_neg h1]
      by_cases h2 : i = a
      · subst h2; simp
      · have h3 : ¬ (a ≤ i ∧ i < a + (b :: s).length) := by simp only [List.length_cons]; omega
        rw [if_neg h2, if_neg h3]

theorem Memory.wf_setBytes {m : Memory} (h : m.wf) (a : Nat) (s : List Byte) : (m.setBytes a s).wf := by
  induction s generalizing m a with
  | nil => exact h
  | cons b s ih => exact ih (Memory.wf_set h a b) (a + 1)

theorem Memory.within_setBytes {m : Memory} {n : Nat} (h : m.within n) (a : Nat) (s : List Byte)
    (ha : a + s.length ≤ n) : (m.setBytes a s).within n := by
  induction s generalizing m a with
  | nil => exact h
  | cons b s ih =>
    simp only [List.length_cons] at ha
    exact ih (Memory.within_set h (by omega) b) (a + 1) (by omega)

/-! ## The same, through the block's read of one byte -/

theorem State.bufByte_setBuf (s : State) (i j : Nat) (b : Byte) :
    (s.setBuf i b).bufByte j = if j = i then b else s.bufByte j := by
  unfold State.bufByte
  rw [State.setBuf_buf, Memory.get?_set]
  split <;> rfl

/-- Two states with the same BUF and the same draw read the same bytes. -/
theorem State.bufByte_congr {s t : State} (hb : t.buf = s.buf) (hs : t.bufSeed = s.bufSeed) (i : Nat) :
    t.bufByte i = s.bufByte i := by simp only [State.bufByte, hb, hs]

/-- A block write read back byte by byte. -/
theorem State.bufByte_setBytes {s t : State} {a : Nat} {f : List Byte} (hb : t.buf = s.buf.setBytes a f)
    (hs : t.bufSeed = s.bufSeed) (i : Nat) :
    t.bufByte i = if a ≤ i ∧ i < a + f.length then f.getD (i - a) 0 else s.bufByte i := by
  unfold State.bufByte
  rw [hb, hs, Memory.get?_setBytes]
  split
  · next h => rw [List.getD_eq_getElem?_getD, List.getElem?_eq_getElem (by omega)]; rfl
  · rfl

/-- The writes of a block of bytes are the block write, and no register changes. -/
theorem State.applyWrites_bufWrites (f : List Byte) (s : State) (a : Nat) :
    s.applyWrites (bufWrites a f) = { s with buf := s.buf.setBytes a f } := by
  induction f generalizing s a with
  | nil => rfl
  | cons b f ih => simp only [bufWrites, State.applyWrites_cons, State.applyWrite, ih]; rfl

theorem State.bufFrom_length (s : State) (a n : Nat) : (s.bufFrom a n).length = n := by
  induction n generalizing a with
  | zero => rfl
  | succ n ih => simp [State.bufFrom, ih]

@[simp] theorem State.bufSeq_length (s : State) (a b : Nat) : (s.bufSeq a b).length = b - a :=
  s.bufFrom_length a (b - a)

theorem State.getElem?_bufFrom (s : State) (a n i : Nat) :
    (s.bufFrom a n)[i]? = if i < n then some (s.bufByte (a + i)) else none := by
  induction n generalizing a i with
  | zero => simp [State.bufFrom]
  | succ n ih =>
    cases i with
    | zero => simp [State.bufFrom]
    | succ i => simp [State.bufFrom, ih, Nat.add_assoc, Nat.add_comm 1]

theorem State.getElem?_bufSeq (s : State) (a b i : Nat) :
    (s.bufSeq a b)[i]? = if i < b - a then some (s.bufByte (a + i)) else none := s.getElem?_bufFrom a (b - a) i

/-- `BufSeq(0, n)` depends only on the bytes below n. -/
theorem State.bufSeq_congr {s t : State} {n : Nat} (h : ∀ i, i < n → t.bufByte i = s.bufByte i) :
    t.bufSeq 0 n = s.bufSeq 0 n := by
  apply List.ext_getElem?
  intro i
  simp only [State.getElem?_bufSeq, Nat.sub_zero, Nat.zero_add]
  split
  · next hi => rw [h i hi]
  · rfl

/-- A BUF that reads as a sequence is that sequence. -/
theorem State.bufSeq_eq_of_bytes {s : State} {f : List Byte} (h : ∀ i, i < f.length → s.bufByte i = f.getD i 0) :
    s.bufSeq 0 f.length = f := by
  apply List.ext_getElem?
  intro i
  simp only [State.getElem?_bufSeq, Nat.sub_zero, Nat.zero_add]
  split
  · next hi => rw [h i hi, List.getD_eq_getElem?_getD, List.getElem?_eq_getElem hi]; rfl
  · next hi => rw [List.getElem?_eq_none (by omega)]

end Sys2Proof.Machine
end

