-- ==== Sys2Proof/Laws/Bytes.lean ====
section
/-! SUPPORT. Big-endian packing and unpacking (R12), by value and by bit slices. -/

namespace Sys2Proof.Machine

@[simp] theorem be_length (n v : Nat) : (be n v).length = n := by
  induction n with
  | zero => rfl
  | succ n ih => simp [be, ih]

theorem be_two (v : Half) : be 2 v.toNat = [hi8 v, lo8 v] := by
  simp only [be, hi8, lo8, List.cons.injEq, and_true]
  constructor <;> apply BitVec.eq_of_toNat_eq <;> simp [BitVec.extractLsb'_toNat, Nat.shiftRight_eq_div_pow]

theorem be_four (v : Word) : be 4 v.toNat = wire32 v := by
  simp only [be, wire32, List.cons.injEq, and_true]
  refine ⟨?_, ?_, ?_, ?_⟩ <;> apply BitVec.eq_of_toNat_eq <;>
    simp [BitVec.extractLsb'_toNat, Nat.shiftRight_eq_div_pow]

theorem toNat_append8 {n : Nat} (x : BitVec n) (b : Byte) : (x ++ b).toNat = x.toNat * 256 + b.toNat := by
  rw [BitVec.toNat_append, Nat.shiftLeft_eq, ← Nat.mul_comm (2 ^ 8), ← Nat.two_pow_add_eq_or_of_lt b.isLt]

/-- `MemRead(i, 2)` is the two bytes side by side. -/
theorem State.memRead_two (s : State) (i : Nat) : s.memRead i 2 = (s.buf16 i).toNat := by
  simp [State.memRead, State.bufSeq, State.bufFrom, unbe, State.buf16, toNat_append8]

/-- `MemRead(i, 4)` is the four bytes side by side. -/
theorem State.memRead_four (s : State) (i : Nat) : s.memRead i 4 = (s.buf32 i).toNat := by
  simp [State.memRead, State.bufSeq, State.bufFrom, unbe, State.buf32, toNat_append8]

theorem State.memWord_two (s : State) (i : Nat) : s.memWord i 2 = (s.buf16 i).setWidth 32 := by
  rw [State.memWord, State.memRead_two]
  apply BitVec.eq_of_toNat_eq
  simp

theorem State.memWord_four (s : State) (i : Nat) : s.memWord i 4 = s.buf32 i := by
  rw [State.memWord, State.memRead_four, BitVec.ofNat_toNat]; simp

theorem hi8_append_lo8 (v : Half) : (hi8 v ++ lo8 v : BitVec 16) = v := by
  apply BitVec.eq_of_toNat_eq
  rw [toNat_append8]
  have := v.isLt
  simp [hi8, lo8, BitVec.extractLsb'_toNat, Nat.shiftRight_eq_div_pow]
  omega

theorem wire32_append (v : Word) :
    (v.extractLsb' 24 8 ++ v.extractLsb' 16 8 ++ v.extractLsb' 8 8 ++ v.extractLsb' 0 8 : BitVec 32) = v := by
  apply BitVec.eq_of_toNat_eq
  rw [toNat_append8, toNat_append8, toNat_append8]
  have := v.isLt
  simp [BitVec.extractLsb'_toNat, Nat.shiftRight_eq_div_pow]
  omega

/-- The header of R105 is the header of R71 byte by byte. -/
theorem hdr_eq_wireHeader (t : Byte) (dev seq cs fl : Half) : hdr t dev seq cs fl = wireHeader t dev seq cs fl := by
  simp [hdr, wireHeader, be_two, Config.protocolVersion]

/-- The payload of R106 is the payload of R72 byte by byte. -/
theorem payload_eq_wirePayload (g : DataRegs) : payload g = wirePayload g := by
  simp [payload, wirePayload, be_two, be_four]

theorem frame_eq_wireFrame (t : Byte) (dev seq fl : Half) (p : List Byte) :
    frame t dev seq fl p = wireFrame t dev seq fl p := by
  simp [frame, frameCsum, wireFrame, hdr_eq_wireHeader]

@[simp] theorem hdr_length (t : Byte) (dev seq cs fl : Half) : (hdr t dev seq cs fl).length = 10 := by simp [hdr]
@[simp] theorem payload_length (g : DataRegs) : (payload g).length = 20 := by simp [payload]
@[simp] theorem frame_length (t : Byte) (dev seq fl : Half) (p : List Byte) :
    (frame t dev seq fl p).length = 10 + p.length := by simp [frame]

/-- The four bytes of a word put together from four bytes, most significant first. -/
theorem bytes_of_append (b0 b1 b2 b3 : Byte) :
    (b0 ++ b1 ++ b2 ++ b3 : Word).extractLsb' 24 8 = b0 ∧ (b0 ++ b1 ++ b2 ++ b3 : Word).extractLsb' 16 8 = b1 ∧
    (b0 ++ b1 ++ b2 ++ b3 : Word).extractLsb' 8 8 = b2 ∧ (b0 ++ b1 ++ b2 ++ b3 : Word).extractLsb' 0 8 = b3 := by
  refine ⟨?_, ?_, ?_, ?_⟩ <;>
  · apply BitVec.eq_of_getLsbD_eq
    intro j hj
    simp only [BitVec.getLsbD_extractLsb', BitVec.getLsbD_append, hj, decide_true, Bool.true_and]
    split_ifs <;> first | omega | (congr 1; omega)

/-- The write set of a command in the window: the words that hold a byte of its frame (R161). -/
theorem writesTarget_window (i : Instr) (k : Nat) :
    Instr.writesTarget i (.window k) = true ↔ 4 * k < Instr.writesBuf i := decide_eq_true_iff

end Sys2Proof.Machine
end

