-- ==== Sys2Proof/Laws/Crc.lean ====
section
/-! SUPPORT. The CRC-16 primitive: its unfolding, and that one shift, and so one byte, loses nothing. -/

namespace Sys2Proof.Machine

theorem crc16_append (s t : List Byte) : crc16 (s ++ t) = t.foldl crcByte (crc16 s) := List.foldl_append ..

@[simp] theorem zeroCsum_length (s : List Byte) : (zeroCsum s).length = s.length := by simp [zeroCsum]

/-- The masked sequence, byte by byte. -/
theorem zeroCsum_getElem? (s : List Byte) (i : Nat) :
    (zeroCsum s)[i]? = if i = 6 ∨ i = 7 then s[i]?.map (fun _ => 0#8) else s[i]? := by
  simp only [zeroCsum, Config.cksumOff, List.getElem?_set, List.length_set]
  by_cases h6 : i = 6
  · subst h6; by_cases h : 6 < s.length <;> simp [h]
  · by_cases h7 : i = 7
    · subst h7; by_cases h : 7 < s.length <;> simp [h]
    · simp [h6, h7, Ne.symm h6, Ne.symm h7]

/-- A frame with its checksum field zeroed is the frame built on the placeholder 0. -/
theorem zeroCsum_hdr (t : Byte) (dev seq cs fl : Half) (p : List Byte) :
    zeroCsum (hdr t dev seq cs fl ++ p) = hdr t dev seq 0#16 fl ++ p := by
  simp [hdr_eq_wireHeader, wireHeader, zeroCsum, Config.cksumOff, hi8, lo8]

theorem fcrc_frame (t : Byte) (dev seq fl : Half) (p : List Byte) :
    fcrc (frame t dev seq fl p) = frameCsum t dev seq fl p := by
  rw [fcrc, frame, zeroCsum_hdr]; rfl

/-- The top bit after a shift is the bit shifted out: the reflected polynomial has its top bit set. -/
theorem crcShift_msb (r : Half) : (crcShift r).getLsbD 15 = r.getLsbD 0 := by
  unfold crcShift
  split <;> simp_all [Config.crcPolyR]

theorem crcShift_injective : Function.Injective crcShift := by
  intro r q h
  have h0 : r.getLsbD 0 = q.getLsbD 0 := by rw [← crcShift_msb, ← crcShift_msb, h]
  have hs : r >>> 1 = q >>> 1 := by
    unfold crcShift at h
    rw [h0] at h
    split at h
    · exact (BitVec.xor_left_inj _).1 h
    · exact h
  apply BitVec.eq_of_getLsbD_eq
  intro i hi
  cases i with
  | zero => exact h0
  | succ i =>
    have := congrArg (fun v : Half => v.getLsbD i) hs
    simpa [BitVec.getLsbD_ushiftRight, Nat.add_comm 1] using this

theorem crcShifts_injective (n : Nat) : Function.Injective (crcShifts n) := by
  induction n with
  | zero => exact fun _ _ h => h
  | succ n ih => exact fun _ _ h => crcShift_injective (ih h)

/-- One byte into two registers that differ leaves them different. -/
theorem crcByte_left_injective (b : Byte) : Function.Injective (fun r => crcByte r b) :=
  fun _ _ h => (BitVec.xor_left_inj _).1 (crcShifts_injective 8 h)

/-- Two bytes that differ, into one register, leave it different. -/
theorem crcByte_right_injective (r : Half) : Function.Injective (crcByte r) := by
  intro b c h
  have := (BitVec.xor_right_inj _).1 (crcShifts_injective 8 h)
  have := congrArg BitVec.toNat this
  rw [BitVec.toNat_setWidth_of_le (by decide), BitVec.toNat_setWidth_of_le (by decide)] at this
  exact BitVec.eq_of_toNat_eq this

theorem foldl_crcByte_injective (s : List Byte) : Function.Injective (fun r => s.foldl crcByte r) := by
  induction s with
  | nil => exact fun _ _ h => h
  | cons b s ih => exact fun _ _ h => crcByte_left_injective b (ih h)

end Sys2Proof.Machine
end

