-- ==== Sys2Proof/Laws/Registers.lean ====
section
/-! SUPPORT. The register file: read after write, and the address map's two directions. -/

namespace Sys2Proof.Machine

/-- A register read back after a write to it holds the low bits of the datum; every other register is as before. -/
theorem DataRegs.get_set (g : DataRegs) (r r' : DataReg) (v : Word) :
    (g.set r v).get r' = if r' = r then (v.setWidth r.width).setWidth 32 else g.get r' := by
  cases r <;> cases r' <;> rfl

/-- No register reads wider than its implemented bits. -/
theorem DataRegs.get_lt (g : DataRegs) (r : DataReg) : (g.get r).toNat < 2 ^ r.width := by
  cases r <;> simp only [DataRegs.get, DataReg.width, BitVec.toNat_setWidth] <;>
    first
    | exact BitVec.isLt _
    | exact lt_of_le_of_lt (Nat.mod_le _ _) (BitVec.isLt _)

/-- Two register files that read alike are equal. -/
theorem DataRegs.ext_get {g h : DataRegs} (e : ∀ r, g.get r = h.get r) : g = h := by
  have w : ∀ {n : Nat} {a b : BitVec n}, n ≤ 32 → a.setWidth 32 = b.setWidth 32 → a = b := by
    intro n a b hn hab
    have := congrArg BitVec.toNat hab
    rw [BitVec.toNat_setWidth_of_le hn, BitVec.toNat_setWidth_of_le hn] at this
    exact BitVec.eq_of_toNat_eq this
  obtain ⟨g1, g2, g3, g4, g5, g6, g7, g8, g9, g10, g11, g12, g13, g14, g15, g16, g17, g18, g19, g20⟩ := g
  obtain ⟨h1, h2, h3, h4, h5, h6, h7, h8, h9, h10, h11, h12, h13, h14, h15, h16, h17, h18, h19, h20⟩ := h
  simp only [DataRegs.mk.injEq]
  exact ⟨w (by decide) (e .len), w (by decide) (e .crcOut), w (by decide) (e .seqLast), w (by decide) (e .seqIn),
    w (by decide) (e .seqRes), w (by decide) (e .seqLoss), w (by decide) (e .fldVer), w (by decide) (e .fldType),
    w (by decide) (e .fldDevid), w (by decide) (e .fldSeq), w (by decide) (e .fldCsum), w (by decide) (e .fldFlags),
    e .fldLat, e .fldLon, w (by decide) (e .fldAlt), e .fldTs, w (by decide) (e .fldSpeed),
    w (by decide) (e .fldHeading), w (by decide) (e .fldBatt), w (by decide) (e .fldStatus)⟩

theorem Reg.ofOffset_offset (r : Reg) : Reg.ofOffset r.offset = some r := by
  rcases r with _ | _ | _ | _ | r <;> first | rfl | cases r <;> rfl

theorem Reg.offset_of_ofOffset {n : Nat} {r : Reg} (h : Reg.ofOffset n = some r) : n = r.offset := by
  unfold Reg.ofOffset at h
  split at h <;> first | (cases h; rfl) | cases h

theorem Reg.offset_lt (r : Reg) : r.offset < 0x78 ∧ r.offset % 4 = 0 := by
  rcases r with _ | _ | _ | _ | r <;> first | decide | cases r <;> decide

/-- A register's address names that register. -/
theorem addrTarget_offset (p : Params) (r : Reg) : addrTarget p (BitVec.ofNat 16 r.offset) = some (.reg r) := by
  have h := Reg.offset_lt r
  have e : (BitVec.ofNat 16 r.offset).toNat = r.offset := by
    rw [BitVec.toNat_ofNat, Nat.mod_eq_of_lt (by omega)]
  unfold addrTarget
  rw [e, if_neg (by omega), if_pos (by simp only [windowBase]; omega), Reg.ofOffset_offset]
  rfl

/-- The window address of word k names that word. -/
theorem addrTarget_window (p : Params) {k : Nat} (hp : p.bufBytes ≤ 32768) (hk : 4 * k + 4 ≤ p.bufBytes) :
    addrTarget p (BitVec.ofNat 16 (windowBase + 4 * k)) = some (.window k) := by
  have e : (BitVec.ofNat 16 (windowBase + 4 * k)).toNat = windowBase + 4 * k := by
    rw [BitVec.toNat_ofNat, Nat.mod_eq_of_lt (by simp only [windowBase]; omega)]
  unfold addrTarget
  rw [e, if_neg (by simp only [windowBase]; omega), if_neg (by omega), if_pos (by omega)]
  simp

/-- What an address names, said once. -/
theorem addrTarget_cases {p : Params} {a : Half} {t : Target} (h : addrTarget p a = some t) :
    (∃ r, t = .reg r ∧ a = BitVec.ofNat 16 r.offset) ∨
    (∃ k, t = .window k ∧ a.toNat = windowBase + 4 * k ∧ 4 * k + 4 ≤ p.bufBytes) := by
  unfold addrTarget at h
  split at h
  · cases h
  · split at h
    · left
      cases hr : Reg.ofOffset a.toNat with
      | none => rw [hr] at h; cases h
      | some r =>
        rw [hr] at h
        refine ⟨r, by simpa using h.symm, ?_⟩
        rw [← Reg.offset_of_ofOffset hr]
        exact (BitVec.ofNat_toNat 16 a).symm ▸ (by simp)
    · split at h
      · right
        refine ⟨(a.toNat - windowBase) / 4, by simpa using h.symm, ?_, ?_⟩ <;> simp only [windowBase] at * <;> omega
      · cases h

/-- Only address 0 names CTRL. -/
theorem addrTarget_ctrl_iff {p : Params} {a : Half} : addrTarget p a = some (.reg .ctrl) ↔ a = 0x0000#16 := by
  constructor
  · intro h
    rcases addrTarget_cases h with ⟨r, hr, ha⟩ | ⟨k, hk, _⟩
    · cases hr; exact ha
    · cases hk
  · rintro rfl; exact addrTarget_offset p .ctrl

end Sys2Proof.Machine
end

