-- ==== Sys2Proof/Laws/Engine.lean ====
section
/-! SUPPORT. Issue, the engine steps and completion: everything each of them can do, said once. -/

namespace Sys2Proof.Machine

/-- Every command is the shared issue of its own rule. -/
theorem exec_eq_issue (i : Instr) (s : State) : exec i s = issue i (commandResult i s) s := by
  cases i <;> rfl

/-- Everything a command can do when its word is written (R139, R138, R160): ignored, rejected, or accepted. -/
theorem exec_cases (i : Instr) (s : State) :
    (s.busy = true ∧ exec i s = .next s.ignoreWrite) ∨
    (s.eng = .idle ∧ Instr.checksLen i = true ∧ s.params.bufBytes < s.regs.len.toNat ∧
      exec i s = .next (s.reject (encode i) .lenRange)) ∨
    (s.eng = .idle ∧ (Instr.checksLen i = true → s.regs.len.toNat ≤ s.params.bufBytes) ∧
      exec i s = .next (s.accept i (commandResult i s))) := by
  rw [exec_eq_issue]
  unfold issue
  by_cases hb : s.busy = true
  · exact .inl ⟨hb, by rw [if_pos hb]⟩
  · have hi : s.eng = .idle := by simpa using hb
    rw [if_neg hb]
    by_cases hc : (Instr.checksLen i && decide (s.params.bufBytes < s.regs.len.toNat)) = true
    · have h := hc
      simp only [Bool.and_eq_true, decide_eq_true_eq] at h
      exact .inr (.inl ⟨hi, h.1, h.2, by rw [if_pos hc]⟩)
    · refine .inr (.inr ⟨hi, ?_, by rw [if_neg hc]⟩)
      intro h
      simp only [h, Bool.true_and, decide_eq_true_eq] at hc
      omega

theorem exec_busy {i : Instr} {s : State} (h : s.busy = true) : exec i s = .next s.ignoreWrite := by
  rw [exec_eq_issue, issue, if_pos h]

theorem exec_lenRange {i : Instr} {s : State} (hi : s.eng = .idle) (hc : Instr.checksLen i = true)
    (hl : s.params.bufBytes < s.regs.len.toNat) : exec i s = .next (s.reject (encode i) .lenRange) := by
  rw [exec_eq_issue, issue, if_neg (by simp [hi]), if_pos (by simp [hc, hl])]

theorem exec_accept {i : Instr} {s : State} (hi : s.eng = .idle)
    (hl : Instr.checksLen i = true → s.regs.len.toNat ≤ s.params.bufBytes) :
    exec i s = .next (s.accept i (commandResult i s)) := by
  rw [exec_eq_issue, issue, if_neg (by simp [hi]), if_neg]
  simp only [Bool.and_eq_true, decide_eq_true_eq, not_and, not_lt]
  exact hl

/-! ## Writes of a pending result -/

/-- The writes of a pending result depend on the registers and BUF alone. -/
theorem State.applyWrites_congr {s t : State} (hr : t.regs = s.regs) (hb : t.buf = s.buf) (ws : List EngWrite) :
    (t.applyWrites ws).regs = (s.applyWrites ws).regs ∧ (t.applyWrites ws).buf = (s.applyWrites ws).buf := by
  induction ws generalizing s t with
  | nil => exact ⟨hr, hb⟩
  | cons w ws ih =>
    refine ih ?_ ?_ <;> cases w <;> simp [State.applyWrite, State.setReg, State.setBuf, hr, hb]

/-- A register that no write names keeps its value. -/
theorem State.applyWrites_get_of_not_mem (ws : List EngWrite) (s : State) (r : DataReg)
    (h : ∀ v, EngWrite.reg r v ∉ ws) : (s.applyWrites ws).regs.get r = s.regs.get r := by
  induction ws generalizing s with
  | nil => rfl
  | cons w ws ih =>
    rw [State.applyWrites_cons, ih _ (fun v hv => h v (List.mem_cons_of_mem _ hv))]
    cases w with
    | buf i b => rfl
    | reg r' v =>
      have hne : r ≠ r' := by
        rintro rfl
        exact h v (List.mem_cons_self ..)
      simp [State.applyWrite, DataRegs.get_set, hne]

/-- A byte that no write names keeps its value. -/
theorem State.applyWrites_bufByte_of_not_mem (ws : List EngWrite) (s : State) (i : Nat)
    (h : ∀ b, EngWrite.buf i b ∉ ws) : (s.applyWrites ws).bufByte i = s.bufByte i := by
  induction ws generalizing s with
  | nil => rfl
  | cons w ws ih =>
    rw [State.applyWrites_cons, ih _ (fun v hv => h v (List.mem_cons_of_mem _ hv))]
    cases w with
    | reg r v => rfl
    | buf j b =>
      have hne : i ≠ j := by
        rintro rfl
        exact h b (List.mem_cons_self ..)
      simp [State.applyWrite, State.bufByte_setBuf, hne]

/-- Writes to BUF alone leave the registers, writes to registers alone leave BUF. -/
theorem State.applyWrites_buf_of_regs {ws : List EngWrite} (h : ∀ i b, EngWrite.buf i b ∉ ws) (s : State) :
    (s.applyWrites ws).buf = s.buf := by
  induction ws generalizing s with
  | nil => rfl
  | cons w ws ih =>
    rw [State.applyWrites_cons, ih (fun i b hb => h i b (List.mem_cons_of_mem _ hb))]
    cases w with
    | reg r v => rfl
    | buf i b => exact absurd (List.mem_cons_self ..) (h i b)

/-! ## Engine steps -/

theorem State.engineTick_idle {s : State} (h : s.eng = .idle) : s.engineTick = s := by
  simp [State.engineTick, h]

theorem State.engineTick_more {s : State} {p : Pending} {n : Nat} (h : s.eng = .busy p (n + 2)) :
    s.engineTick = { s with eng := .busy p (n + 1) } := by simp [State.engineTick, h]

theorem State.engineTick_last {s : State} {p : Pending} {n : Nat} (h : s.eng = .busy p n) (hn : n ≤ 1) :
    s.engineTick = s.complete := by
  interval_cases n <;> simp [State.engineTick, h]

/-- Everything an engine step can do. -/
theorem State.engineTick_cases (s : State) :
    (s.eng = .idle ∧ s.engineTick = s) ∨
    (∃ p n, s.eng = .busy p (n + 2) ∧ s.engineTick = { s with eng := .busy p (n + 1) }) ∨
    (∃ p n, s.eng = .busy p n ∧ n ≤ 1 ∧ s.engineTick = s.complete) := by
  cases h : s.eng with
  | idle => exact .inl ⟨rfl, State.engineTick_idle h⟩
  | busy p n =>
    match n, h with
    | 0, h => exact .inr (.inr ⟨p, 0, rfl, by omega, State.engineTick_last h (by omega)⟩)
    | 1, h => exact .inr (.inr ⟨p, 1, rfl, by omega, State.engineTick_last h (by omega)⟩)
    | n + 2, h => exact .inr (.inl ⟨p, n, rfl, State.engineTick_more h⟩)

/-- The completion does not depend on the latency that was left. -/
theorem State.complete_of_eng_update {s : State} {p : Pending} {n m : Nat} (h : s.eng = .busy p n) :
    State.complete { s with eng := .busy p m } = s.complete := by
  rw [State.complete_of_eng s h, State.complete_of_eng _ rfl]
  have := State.applyWrites_congr (s := s) (t := { s with eng := .busy p m }) rfl rfl p.res.writes
  simp [this]

/-- `LATENCY` engine steps complete the command in flight. -/
theorem State.finish_of_eng {s : State} {p : Pending} {n : Nat} (h : s.eng = .busy p (n + 1)) :
    s.finish = s.complete := by
  have key : ∀ m (u : State), u.eng = .busy p (m + 1) → State.engineTicks (m + 1) u = u.complete := by
    intro m
    induction m with
    | zero => intro u hu; exact State.engineTick_last hu (by omega)
    | succ m ih =>
      intro u hu
      rw [State.engineTicks, State.engineTick_more hu, ih _ rfl, State.complete_of_eng_update hu]
  rw [State.finish, State.remaining_of_eng s h]
  exact key n s h

/-- Acceptance and `LATENCY` engine steps: the writes of the command's rule, its code, its opcode, DONE, and nothing
else (R160, R137). -/
theorem State.finish_accept (s : State) (i : Instr) (r : CmdResult) :
    (s.accept i r).finish = { s with
      cmd := encode i, regs := (s.applyWrites r.writes).regs, buf := (s.applyWrites r.writes).buf,
      result := r.code, lastOp := opField (encode i), done := true, eng := .idle,
      draws := s.draws + 1, latencies := s.latencies.tail } := by
  have he : (s.accept i r).eng = .busy ⟨i, r⟩ (s.nextLatency + 1) := rfl
  rw [State.finish_of_eng he, State.complete_of_eng _ he]
  have := State.applyWrites_congr (s := s) (t := s.accept i r) rfl rfl r.writes
  simp [this]

end Sys2Proof.Machine
end

