-- ==== Sys2Proof/Laws/Bus.lean ====
section
/-! SUPPORT. Host accesses and the step: everything each of them can do, said once. -/

namespace Sys2Proof.Machine

/-! ## The step, event by event -/

theorem step_nil {s : State} (h : s.inputs = []) : step s = .next s.engineTick := by simp [step, h]
theorem step_read {s : State} {a : Half} {rest : List Event} (h : s.inputs = .read a :: rest) :
    step s = .next (hostRead a s.popInput) := by simp [step, h]
theorem step_write {s : State} {a : Half} {d : Word} {rest : List Event} (h : s.inputs = .write a d :: rest) :
    step s = hostWrite a d s.popInput := by simp [step, h]
theorem step_engine {s : State} {rest : List Event} (h : s.inputs = .engine :: rest) :
    step s = .next s.popInput.engineTick := by simp [step, h]
theorem step_hwReset {s : State} {rest : List Event} (h : s.inputs = .hwReset :: rest) :
    step s = .next s.popInput.resetBlock := by simp [step, h]
theorem step_wait {s : State} {rest : List Event} (h : s.inputs = .wait :: rest) :
    step s = .next (hostPoll s.popInput) := by simp [step, h]

theorem State.popInput_eq {s : State} {e : Event} {rest : List Event} (h : s.inputs = e :: rest) :
    s.popInput = { s with inputs := rest } := by simp [State.popInput, h]

@[simp] theorem State.popInput_busy (s : State) : s.popInput.busy = s.busy := rfl
@[simp] theorem State.respond_busy (s : State) (r : BusResponse) : (s.respond r).busy = s.busy := rfl

/-! ## Reads -/

/-- A read changes the response and the count of draws, and nothing else (R58). -/
theorem hostRead_eq (a : Half) (s : State) :
    ∃ r n, hostRead a s = { s with response := some r, draws := n } ∧ s.draws ≤ n := by
  unfold hostRead
  split
  · exact ⟨_, s.draws, rfl, le_refl _⟩
  · split
    · exact ⟨_, s.draws + 1, rfl, Nat.le_succ _⟩
    · exact ⟨_, s.draws, rfl, le_refl _⟩

theorem hostRead_unmapped {a : Half} {s : State} (h : addrTarget s.params a = none) :
    hostRead a s = s.respond (.read .error 0#32) := by simp [hostRead, h]

theorem hostRead_mapped {a : Half} {s : State} {t : Target} (h : addrTarget s.params a = some t)
    (hf : s.inFlight t = false) : hostRead a s = s.respond (.read .okay (s.readTarget t)) := by
  simp [hostRead, h, hf]

theorem hostRead_inFlight {a : Half} {s : State} {t : Target} (h : addrTarget s.params a = some t)
    (hf : s.inFlight t = true) :
    hostRead a s = { s with response := some (.read .okay (Config.readDraw s.draws)), draws := s.draws + 1 } := by
  simp [hostRead, h, hf]

theorem State.inFlight_idle {s : State} (h : s.eng = .idle) (t : Target) : s.inFlight t = false := by
  simp [State.inFlight, h]

/-! ## Writes -/

theorem hostWrite_unmapped {a : Half} {s : State} (d : Word) (h : addrTarget s.params a = none) :
    hostWrite a d s = .next (s.respond (.write .error)) := by simp [hostWrite, h]

theorem hostWrite_mapped {a : Half} {s : State} {t : Target} (d : Word) (h : addrTarget s.params a = some t) :
    hostWrite a d s = writeTarget t d (s.respond (.write .okay)) := by simp [hostWrite, h]

theorem writeTarget_ctrl (d : Word) (s : State) : writeTarget (.reg .ctrl) d s = .next (s.writeCtrl d) := by
  simp [writeTarget]

theorem writeTarget_busy {t : Target} {d : Word} {s : State} (ht : t ≠ .reg .ctrl) (hb : s.busy = true) :
    writeTarget t d s = .next s.ignoreWrite := by simp [writeTarget, ht, hb]

theorem writeTarget_idle {t : Target} {d : Word} {s : State} (hi : s.eng = .idle) :
    writeTarget t d s = writeIdle t d s := by
  unfold writeTarget
  split
  · next h => subst h; rfl
  · simp [hi]

/-- Everything a write to a mapped address can do, `s` being the block with the response already given. -/
theorem writeTarget_cases {t : Target} {d : Word} {s u : State} (h : writeTarget t d s = .next u) :
    (t = .reg .ctrl ∧ u = s.writeCtrl d) ∨
    (t ≠ .reg .ctrl ∧ s.busy = true ∧ u = s.ignoreWrite) ∨
    (s.eng = .idle ∧
      ((t = .reg .status ∧ u = s.clearFlags d) ∨
       (t = .reg .cmd ∧ (∃ e, decodeWord d = .error e) ∧ u = s.reject d .illegalCmd) ∨
       (t = .reg .cmd ∧ ∃ i, decodeWord d = .ok i ∧ exec i s = .next u) ∨
       (t = .reg .cap ∧ u = s) ∨
       (∃ r, t = .reg (.data r) ∧ r.hostWritable = false ∧ u = s) ∨
       (∃ r, t = .reg (.data r) ∧ r.hostWritable = true ∧ u = s.setReg r d) ∨
       (∃ k, t = .window k ∧ u = s.writeWindow k d))) := by
  unfold writeTarget at h
  split at h
  · next ht => exact .inl ⟨ht, by cases h; rfl⟩
  · next ht =>
    split at h
    · next hb => exact .inr (.inl ⟨ht, hb, by cases h; rfl⟩)
    · next hb =>
      refine .inr (.inr ⟨by simpa using hb, ?_⟩)
      rcases t with (_ | _ | _ | _ | r) | k
      · exact absurd rfl ht
      · exact .inl ⟨rfl, by cases h; rfl⟩
      · simp only [writeIdle] at h
        split at h
        · next e he => exact .inr (.inl ⟨rfl, ⟨e, he⟩, by cases h; rfl⟩)
        · next i hi => exact .inr (.inr (.inl ⟨rfl, i, hi, h⟩))
      · exact .inr (.inr (.inr (.inl ⟨rfl, by cases h; rfl⟩)))
      · simp only [writeIdle] at h
        by_cases hw : r.hostWritable = true
        · rw [if_pos hw] at h
          exact .inr (.inr (.inr (.inr (.inr (.inl ⟨r, rfl, hw, by cases h; rfl⟩)))))
        · rw [if_neg hw] at h
          exact .inr (.inr (.inr (.inr (.inl ⟨r, rfl, by simpa using hw, by cases h; rfl⟩))))
      · exact .inr (.inr (.inr (.inr (.inr (.inr ⟨k, rfl, by cases h; rfl⟩)))))

/-- Everything a step can do, one case per kind of event. -/
theorem step_cases {s u : State} (h : step s = .next u) :
    (s.inputs = [] ∧ u = s.engineTick) ∨
    (∃ rest, s.inputs = .engine :: rest ∧ u = s.popInput.engineTick) ∨
    (∃ a rest, s.inputs = .read a :: rest ∧ u = hostRead a s.popInput) ∨
    (∃ a d rest, s.inputs = .write a d :: rest ∧ addrTarget s.params a = none ∧
      u = s.popInput.respond (.write .error)) ∨
    (∃ a d rest t, s.inputs = .write a d :: rest ∧ addrTarget s.params a = some t ∧
      writeTarget t d (s.popInput.respond (.write .okay)) = .next u) ∨
    (∃ rest, s.inputs = .hwReset :: rest ∧ u = s.popInput.resetBlock) ∨
    (∃ rest, s.inputs = .wait :: rest ∧ u = hostPoll s.popInput) := by
  cases hs : s.inputs with
  | nil => rw [step_nil hs] at h; cases h; exact .inl ⟨rfl, rfl⟩
  | cons e rest =>
    cases e with
    | engine => rw [step_engine hs] at h; cases h; exact .inr (.inl ⟨rest, rfl, rfl⟩)
    | read a => rw [step_read hs] at h; cases h; exact .inr (.inr (.inl ⟨a, rest, rfl, rfl⟩))
    | hwReset =>
      rw [step_hwReset hs] at h; cases h
      exact .inr (.inr (.inr (.inr (.inr (.inl ⟨rest, rfl, rfl⟩)))))
    | wait =>
      rw [step_wait hs] at h; cases h
      exact .inr (.inr (.inr (.inr (.inr (.inr ⟨rest, rfl, rfl⟩)))))
    | write a d =>
      rw [step_write hs] at h
      cases ht : addrTarget s.params a with
      | none =>
        rw [hostWrite_unmapped d (by simpa using ht)] at h; cases h
        exact .inr (.inr (.inr (.inl ⟨a, d, rest, rfl, ht, rfl⟩)))
      | some t =>
        rw [hostWrite_mapped d (by simpa using ht)] at h
        exact .inr (.inr (.inr (.inr (.inl ⟨a, d, rest, t, rfl, ht, h⟩))))

/-- One turn of a WAIT loop: the response of a read of STATUS, and the loop still to come exactly while BUSY. -/
theorem hostPoll_eq (s : State) :
    hostPoll s = { s with
      response := some (.read .okay s.statusWord),
      inputs := if s.busy then .engine :: .wait :: s.inputs else s.inputs } := by
  have ht : addrTarget s.params statusAddr = some (.reg .status) := addrTarget_offset s.params .status
  have hf : s.inFlight (.reg .status) = false := by unfold State.inFlight; cases s.eng <;> rfl
  unfold hostPoll
  rw [hostRead_mapped ht hf]
  cases hb : s.busy <;> simp [State.respond, State.readTarget, State.readReg]

end Sys2Proof.Machine
end

