-- ==== Sys2Proof/Laws/Decode.lean ====
section
/-! SUPPORT. The command word: its three fields make it up, and the illegal words are those of R87. -/

namespace Sys2Proof.Machine

/-- A command word is its three fields. -/
theorem word_of_fields (w : Word) : reservedField w ++ BitVec.ofBool (zField w) ++ opField w = w := by
  apply BitVec.eq_of_getLsbD_eq
  intro j hj
  simp only [BitVec.getLsbD_append, reservedField, zField, opField, BitVec.getLsbD_extractLsb', BitVec.getLsbD_ofBool]
  by_cases h8 : j < 8
  · simp [h8]
  · by_cases h9 : j = 8
    · subst h9; simp
    · have h1 : ¬ (j - 8 < 1) := by omega
      have h2 : 9 + (j - 8 - 1) = j := by omega
      have h3 : j - 8 - 1 < 23 := by omega
      simp [h8, h1, h2, h3]

@[simp] theorem opField_encode (i : Instr) : opField (encode i) = i.op := by
  cases i with
  | crc z => cases z <;> rfl
  | encData => rfl
  | encAck => rfl
  | encHb => rfl
  | decode => rfl
  | classify => rfl

end Sys2Proof.Machine
end

