-- ==== Sys2Proof/Laws/Commands.lean ====
section
/-! SUPPORT. What the rule of each command writes, as one register update and one BUF update. -/

namespace Sys2Proof.Machine

theorem setWidth16_32 (v : Half) : (v.setWidth 32).setWidth 16 = v := by
  apply BitVec.eq_of_toNat_eq; simp

theorem setWidth17_32 (v : BitVec 17) : (v.setWidth 32).setWidth 17 = v := by
  apply BitVec.eq_of_toNat_eq; simp

theorem setWidth8_32 (v : Byte) : (v.setWidth 32).setWidth 8 = v := by
  apply BitVec.eq_of_toNat_eq; simp

/-- CRC writes CRC_OUT alone (R97, R101). -/
theorem applyWrites_crc (s : State) (z : Bool) :
    s.applyWrites (crcResult z s).writes = { s with regs := { s.regs with
      crcOut := if z then fcrc (s.bufSeq 0 s.regs.len.toNat) else crc16 (s.bufSeq 0 s.regs.len.toNat) } } := by
  simp only [crcResult, State.applyWrites_cons, State.applyWrites_nil, State.applyWrite, State.setReg, DataRegs.set]
  rw [setWidth16_32]

/-- An encoder writes BUF from byte 0, LEN and CRC_OUT (R109). -/
theorem applyWrites_encoder (s : State) (f : List Byte) (c : Half) :
    s.applyWrites (encoderResult f c).writes = { s with
      buf := s.buf.setBytes 0 f, regs := { s.regs with len := BitVec.ofNat 16 f.length, crcOut := c } } := by
  simp only [encoderResult, State.applyWrites_append, State.applyWrites_bufWrites, State.applyWrites_cons,
    State.applyWrites_nil, State.applyWrite, State.setReg, DataRegs.set]
  rw [setWidth16_32]
  have : (BitVec.ofNat 32 f.length).setWidth 16 = BitVec.ofNat 16 f.length := by
    apply BitVec.eq_of_toNat_eq; simp
  rw [this]

/-- CLASSIFY writes SEQ_RES and SEQ_LOSS (R126). -/
theorem applyWrites_classify (s : State) :
    s.applyWrites (classifyResult s).writes = { s with regs := { s.regs with
      seqRes := seqResOf (ringDist s.regs.seqLast s.regs.seqIn)
      seqLoss := seqLossOf (ringDist s.regs.seqLast s.regs.seqIn) } } := by
  simp only [classifyResult, State.applyWrites_cons, State.applyWrites_nil, State.applyWrite, State.setReg,
    DataRegs.set]
  rw [setWidth16_32, setWidth17_32]

/-- The registers after a successful DECODE, before CRC_OUT (R112, R113). -/
def decodedRegs (s : State) : DataRegs :=
  let g := { s.regs with
    fldVer := s.bufByte 0, fldType := s.bufByte 1, fldDevid := s.buf16 2, fldSeq := s.buf16 4,
    fldCsum := s.buf16 6, fldFlags := s.buf16 8 }
  if s.frameIsData then
    { g with
      fldLat := s.buf32 10, fldLon := s.buf32 14, fldAlt := s.buf16 18, fldTs := s.buf32 20,
      fldSpeed := s.buf16 24, fldHeading := s.buf16 26, fldBatt := s.bufByte 28, fldStatus := s.bufByte 29 }
  else g

/-- DECODE writes registers alone: CRC_OUT when LEN ≥ 10, the fields when the result is OK (R110). -/
theorem applyWrites_decode (s : State) :
    s.applyWrites (decodeResult s).writes = { s with regs :=
      { (if decodeCode s = .ok then decodedRegs s else s.regs) with
        crcOut := if s.regs.len.toNat < 10 then s.regs.crcOut else fcrc (s.bufSeq 0 s.regs.len.toNat) } } := by
  have h16 : ∀ v : Half, (v.setWidth 32).setWidth 16 = v := setWidth16_32
  have h8 : ∀ v : Byte, (v.setWidth 32).setWidth 8 = v := setWidth8_32
  simp only [decodeResult, decodeCrcWrite, decodeFieldWrites, decodedRegs, Config.headerLen]
  by_cases h1 : s.regs.len.toNat < 10 <;> by_cases h2 : decodeCode s = .ok <;> by_cases h3 : s.frameIsData = true <;>
    simp [h1, h2, h3, headerWrites, payloadWrites, State.memWord_two, State.memWord_four, State.applyWrite,
      State.setReg, DataRegs.set, h16, h8, -BitVec.setWidth_setWidth]

/-- The two bytes of a 16-bit value put together. -/
theorem append_hi8_lo8 (v : Half) : (hi8 v ++ lo8 v : Half) = v := by
  apply BitVec.eq_of_toNat_eq
  rw [toNat_append8]
  simp [hi8, lo8, BitVec.extractLsb'_toNat, Nat.shiftRight_eq_div_pow]
  omega

/-- The four bytes of a 32-bit value put together. -/
theorem append_wire32 (v : Word) :
    (v.extractLsb' 24 8 ++ v.extractLsb' 16 8 ++ v.extractLsb' 8 8 ++ v.extractLsb' 0 8 : Word) = v := by
  apply BitVec.eq_of_toNat_eq
  rw [toNat_append8, toNat_append8, toNat_append8]
  simp [BitVec.extractLsb'_toNat, Nat.shiftRight_eq_div_pow]
  omega

/-- The two bytes of two bytes put together. -/
theorem hi8_lo8_append (x y : Byte) : hi8 (x ++ y) = x ∧ lo8 (x ++ y) = y := by
  constructor <;>
  · apply BitVec.eq_of_getLsbD_eq
    intro j hj
    simp only [hi8, lo8, BitVec.getLsbD_extractLsb', BitVec.getLsbD_append, hj, decide_true, Bool.true_and]
    split_ifs <;> first | omega | (congr 1; omega)

/-- The verdict in exact arithmetic (R127). -/
theorem isFresh_iff (d : Half) : isFresh d = true ↔ 0 < d.toNat ∧ d.toNat < 32768 := by
  rw [isFresh, Bool.and_eq_true, decide_eq_true_iff, decide_eq_true_iff]; rfl

/-- A command's rule reads the registers, BUF and the parameters alone. -/
theorem commandResult_congr {s t : State} (hr : t.regs = s.regs) (hb : t.buf = s.buf) (hs : t.bufSeed = s.bufSeed)
    (hp : t.params = s.params) (i : Instr) : commandResult i t = commandResult i s := by
  have hbb : ∀ i, t.bufByte i = s.bufByte i := State.bufByte_congr hb hs
  have hf : ∀ a n, t.bufFrom a n = s.bufFrom a n := by
    intro a n
    induction n generalizing a with
    | zero => rfl
    | succ n ih => simp [State.bufFrom, hbb, ih]
  cases i <;>
    simp [commandResult, crcResult, encDataResult, encAckResult, encHbResult, decodeResult, classifyResult, hr, hp,
      decodeCrcWrite, decodeFieldWrites, decodeCode, headerWrites, payloadWrites, State.memWord, State.memRead,
      State.bufSeq, hf, hbb, State.frameIsData]

/-- An accepted command and all its engine steps (R160, R137). -/
theorem exec_finish {i : Instr} {s : State} (hi : s.eng = .idle)
    (hl : Instr.checksLen i = true → s.regs.len.toNat ≤ s.params.bufBytes) :
    ∃ t, exec i s = .next t ∧ t.busy = true ∧ t.finish = { s with
      cmd := encode i, regs := (s.applyWrites (commandResult i s).writes).regs,
      buf := (s.applyWrites (commandResult i s).writes).buf, result := (commandResult i s).code,
      lastOp := opField (encode i), done := true, eng := .idle, draws := s.draws + 1,
      latencies := s.latencies.tail } :=
  ⟨_, exec_accept hi hl, rfl, State.finish_accept _ _ _⟩

/-- A step, then the rest of a run. -/
theorem run_step {k : Nat} {s t : State} {o : Host.Outcome State Fault Refusal} (h : step s = .next t)
    (hr : Host.Core.run Sys2Proof.core k t = o) : Host.Core.run Sys2Proof.core (k + 1) s = o := by
  have h' : Sys2Proof.core.step s = .next t := h
  have e : Host.Core.run Sys2Proof.core (k + 1) s = Host.Core.run Sys2Proof.core k t := by
    simp only [Host.Core.run, h']
  rw [e, hr]

end Sys2Proof.Machine
end

