-- ==== Sys2Proof/Laws/PerInstr.lean ====
section
/-! SUPPORT. Statements made per command: every command is well-formed and its word decodes to it. -/

namespace Sys2Proof.Laws.RoundTrip

/-- The command is well-formed and the decoder reads it back from its word (R85, R88). -/
def Statement (i : Instr) : Prop := i.wf = true ∧ decodeWord (encode i) = .ok i

theorem crc (z : Bool) : Statement (.crc z) := by cases z <;> exact ⟨rfl, rfl⟩
theorem encData : Statement .encData := ⟨rfl, rfl⟩
theorem encAck : Statement .encAck := ⟨rfl, rfl⟩
theorem encHb : Statement .encHb := ⟨rfl, rfl⟩
theorem decode : Statement .decode := ⟨rfl, rfl⟩
theorem classify : Statement .classify := ⟨rfl, rfl⟩

end Sys2Proof.Laws.RoundTrip
end

