-- ==== Sys2Proof/Laws/Step.lean ====
section
/-! SUPPORT. The step by its effect on the state, the events that cause it set aside: every step is one of these. -/

namespace Sys2Proof.Machine

/-- The completion does not depend on the events to come. -/
theorem State.complete_of_inputs {s : State} {p : Pending} {n : Nat} (he : s.eng = .busy p n) (rest : List Event) :
    State.complete { s with inputs := rest } = { s.complete with inputs := rest } := by
  rw [State.complete_of_eng s he, State.complete_of_eng (p := p) (n := n) _ (by exact he)]
  have := State.applyWrites_congr (s := s) (t := { s with inputs := rest }) rfl rfl p.res.writes
  simp [this]

/-- The block is idle after a completion. -/
theorem State.complete_eng (s : State) : s.complete.eng = .idle := by
  unfold State.complete
  split
  · assumption
  · rfl

/-- What an idle write does, by what it names. -/
inductive IdleEffect (s : State) (tg : Target) (d : Word) : State → Prop
  | clear (h : tg = .reg .status) : IdleEffect s tg d (s.clearFlags d)
  | illegal (h : tg = .reg .cmd) (e : Illegal) (he : decodeWord d = .error e) :
      IdleEffect s tg d (s.reject d .illegalCmd)
  | lenRange (h : tg = .reg .cmd) (i : Instr) (hi : decodeWord d = .ok i) (hc : Instr.checksLen i = true)
      (hl : s.params.bufBytes < s.regs.len.toNat) : IdleEffect s tg d (s.reject (encode i) .lenRange)
  | accept (h : tg = .reg .cmd) (i : Instr) (hi : decodeWord d = .ok i)
      (hl : Instr.checksLen i = true → s.regs.len.toNat ≤ s.params.bufBytes) :
      IdleEffect s tg d (s.accept i (commandResult i s))
  | none : IdleEffect s tg d s
  | register (r : DataReg) (h : tg = .reg (.data r)) (hw : r.hostWritable = true) : IdleEffect s tg d (s.setReg r d)
  | window (k : Nat) (h : tg = .window k) : IdleEffect s tg d (s.writeWindow k d)

/-- What a step does. -/
inductive StepEffect (s : State) : State → Prop
  /-- The command in flight completes. -/
  | complete (i : Instr) (p : Pending) (n : Nat) (rest : List Event) (hc : s.completesNext i)
      (he : s.eng = .busy p n) (hp : p.instr = i) : StepEffect s (State.complete { s with inputs := rest })
  /-- Nothing but the latency left, the response, the events and the draws changes. -/
  | quiet (e : Eng) (rs : Option BusResponse) (ins : List Event) (n : Nat) (hn : s.draws ≤ n)
      (he : e = s.eng ∨ ∃ p k, s.eng = .busy p (k + 2) ∧ e = .busy p (k + 1)) :
      StepEffect s { s with eng := e, response := rs, inputs := ins, draws := n }
  /-- A reset. -/
  | reset (rs : Option BusResponse) (ins : List Event) (h : s.resetsNext = true) :
      StepEffect s (State.resetBlock { s with response := rs, inputs := ins })
  /-- A write to CTRL that does not reset. -/
  | ctrl (d : Word) (rs : Option BusResponse) (rest : List Event) (hin : s.inputs = .write 0x0000#16 d :: rest)
      (hd : d.getLsbD 0 = false) : StepEffect s { s with inputs := rest, response := rs, ie := d.getLsbD 1 }
  /-- A mapped write other than to CTRL, ignored while BUSY. -/
  | ignored (a : Half) (d : Word) (rs : Option BusResponse) (rest : List Event) (hb : s.busy = true)
      (hin : s.inputs = .write a d :: rest) (hm : addrTarget s.params a ≠ none) (hc : a ≠ 0x0000#16) :
      StepEffect s { s with inputs := rest, response := rs, werr := true }
  /-- A write while idle. -/
  | idle (a : Half) (d : Word) (tg : Target) (rs : Option BusResponse) (rest : List Event) (t : State)
      (hi : s.eng = .idle) (hin : s.inputs = .write a d :: rest) (ht : addrTarget s.params a = some tg)
      (he : IdleEffect { s with inputs := rest, response := rs } tg d t) : StepEffect s t

/-- An engine step, by effect. -/
theorem stepEffect_tick {s : State} {rest : List Event} (hin : s.inputs = [] ∨ ∃ r, s.inputs = .engine :: r) :
    StepEffect s (State.engineTick { s with inputs := rest }) := by
  rcases State.engineTick_cases { s with inputs := rest } with ⟨_, e⟩ | ⟨p, n, he, e⟩ | ⟨p, n, he, hn, e⟩
  · rw [e]; exact .quiet s.eng s.response rest s.draws (le_refl _) (.inl rfl)
  · rw [e]; exact .quiet (.busy p (n + 1)) s.response rest s.draws (le_refl _) (.inr ⟨p, n, he, rfl⟩)
  · rw [e]
    have he' : s.eng = .busy p n := he
    refine .complete p.instr p n rest ⟨⟨p, ?_, rfl⟩, ?_, hin⟩ he rfl
    · rw [State.remaining_of_eng s he']; exact he'
    · rw [State.remaining_of_eng s he']; exact hn

/-- Every step has one of the effects. -/
theorem step_effect {s t : State} (h : step s = .next t) : StepEffect s t := by
  rcases step_cases h with ⟨hin, e⟩ | ⟨rest, hin, e⟩ | ⟨a, rest, hin, e⟩ | ⟨a, d, rest, hin, _, e⟩ |
    ⟨a, d, rest, tg, hin, ht, e⟩ | ⟨rest, hin, e⟩ | ⟨rest, hin, e⟩
  · have := stepEffect_tick (rest := []) (.inl hin)
    rw [e]
    simpa [← hin] using this
  · rw [e, State.popInput_eq hin]; exact stepEffect_tick (.inr ⟨rest, hin⟩)
  · obtain ⟨r, n, e2, hn⟩ := hostRead_eq a s.popInput
    rw [e, e2, State.popInput_eq hin]
    exact .quiet s.eng (some r) rest n hn (.inl rfl)
  · rw [e, State.popInput_eq hin]
    exact .quiet s.eng (some (.write .error)) rest s.draws (le_refl _) (.inl rfl)
  · rw [State.popInput_eq hin] at e
    rcases writeTarget_cases e with ⟨hc, e'⟩ | ⟨hne, hb, e'⟩ | ⟨hi, hh⟩
    · rw [hc] at ht
      obtain rfl := addrTarget_ctrl_iff.1 ht
      rw [e', State.writeCtrl]
      split
      · next hd => exact .reset _ rest (by simp [State.resetsNext, hin, Event.isReset, hd])
      · next hd => exact .ctrl d _ rest hin (by simpa using hd)
    · rw [e']
      refine .ignored a d _ rest hb hin (by simp [ht]) ?_
      intro hc
      have h0 := (addrTarget_ctrl_iff (p := s.params)).2 hc
      rw [ht] at h0
      exact hne (Option.some.inj h0)
    · refine .idle a d tg (some (.write .okay)) rest t hi hin ht ?_
      rcases hh with ⟨h, e'⟩ | ⟨h, ⟨x, hx⟩, e'⟩ | ⟨hcmd, i, hd, e'⟩ | ⟨_, e'⟩ | ⟨_, _, _, e'⟩ | ⟨r, h, hw, e'⟩ |
        ⟨k, h, e'⟩
      · rw [e']; exact .clear h
      · rw [e']; exact .illegal h x hx
      · rcases exec_cases i _ with ⟨hb, _⟩ | ⟨_, hc, hl, e2⟩ | ⟨_, hl, e2⟩
        · rw [State.busy_of_idle _ (by exact hi)] at hb; cases hb
        · cases e'.symm.trans e2; exact .lenRange hcmd i hd hc hl
        · cases e'.symm.trans e2; exact .accept hcmd i hd hl
      · rw [e']; exact .none
      · rw [e']; exact .none
      · rw [e']; exact .register r h hw
      · rw [e']; exact .window k h
  · rw [e, State.popInput_eq hin]
    exact .reset s.response rest (by simp [State.resetsNext, hin, Event.isReset])
  · rw [e, State.popInput_eq hin, hostPoll_eq]
    exact .quiet s.eng _ _ s.draws (le_refl _) (.inl rfl)

end Sys2Proof.Machine
end

