-- ==== Sys2Proof/Tests/Slice0.lean ====
section
/-! SUPPORT. The model's own tests. Expected values come from the spec: the vectors of 95_test_vectors.md (named V-…)
and words written out from 30_encoding.md. The witnesses at the end show that the hypotheses of the statements can be
met together. -/

namespace Sys2Proof.Tests

open Sys2Proof Sys2Proof.Machine

/-! ## Helpers -/

/-- Reset, with events to come and the next command's latency drawn as 1. -/
def start (evs : List Event) : State := { State.reset with inputs := evs, latencies := [0] }

/-- The state an outcome gives. -/
def got : Outcome → State
  | .next s => s
  | .fault _ => State.reset
  | .refused _ => State.reset

/-- The state after one command and its engine step. -/
def done (i : Instr) (s : State) : State := (got (exec i s)).finish

/-- Bytes in BUF from byte 0, and LEN. -/
def frameIn (bytes : List Byte) : State :=
  { start [] with
    buf := Memory.setBytes [] 0 bytes
    regs := DataRegs.set DataRegs.zero .len (BitVec.ofNat 32 bytes.length) }

/-- The field registers of V-F1. -/
def fieldsF1 : DataRegs :=
  { DataRegs.zero with
    fldDevid := 0x10E1#16, fldSeq := 0x002A#16, fldFlags := 0x0004#16, fldLat := 0xF5A1F668#32
    fldLon := 0xD8913E30#32, fldAlt := 0x09FE#16, fldTs := 0x6553F100#32, fldSpeed := 0x01C2#16
    fldHeading := 0x0546#16, fldBatt := 0x55#8, fldStatus := 0x00#8 }

/-- The frame V-F1. -/
def frameF1 : List Byte :=
  [0x01, 0x01, 0x10, 0xE1, 0x00, 0x2A, 0x35, 0x4B, 0x00, 0x04] ++
  [0xF5, 0xA1, 0xF6, 0x68, 0xD8, 0x91, 0x3E, 0x30, 0x09, 0xFE] ++
  [0x65, 0x53, 0xF1, 0x00, 0x01, 0xC2, 0x05, 0x46, 0x55, 0x00]

/-- The frame V-F2. -/
def frameF2 : List Byte := [0x01, 0x02, 0x10, 0xE1, 0x00, 0x2A, 0x66, 0xD1, 0x00, 0x00]

/-- SEQ_LAST and SEQ_IN. -/
def ring (a b : Half) : State := { start [] with regs := { DataRegs.zero with seqLast := a, seqIn := b } }

/-- ENC_ACK of device 4321, sequence 42, in flight with its last engine step to come. -/
def ackInFlight (evs : List Event) : State :=
  let s := { start evs with regs := { DataRegs.zero with fldDevid := 0x10E1#16, fldSeq := 0x002A#16 } }
  { s with cmd := 0x00000003#32, eng := .busy ⟨.encAck, commandResult .encAck s⟩ 1 }

/-! ## Well-formedness: each check refuses a term that breaks it alone -/

theorem test_wf_default : Params.default.wf = true := by decide
theorem test_wf_instr : Instr.wf (.crc true) = true ∧ Instr.wf .classify = true := by decide
theorem test_wf_buf_multiple : Params.wf { Params.default with bufBytes := 66 } = false := by decide
theorem test_wf_buf_low : Params.wf { Params.default with bufBytes := 28 } = false := by decide
theorem test_wf_buf_high : Params.wf { Params.default with bufBytes := 32772 } = false := by decide
theorem test_wf_data_ack : Params.wf { Params.default with mtAck := 0x01#8 } = false := by decide
theorem test_wf_data_hb : Params.wf { Params.default with mtHeartbeat := 0x01#8 } = false := by decide
theorem test_wf_ack_hb : Params.wf { Params.default with mtHeartbeat := 0x02#8 } = false := by decide
theorem test_wf_flag_zero : Params.wf { Params.default with flagSos := 0x0000#16 } = false := by decide
theorem test_wf_flag_two_bits : Params.wf { Params.default with flagMoving := 0x0030#16 } = false := by decide
theorem test_wf_flag_equal : Params.wf { Params.default with flagIgnitionOn := 0x0001#16 } = false := by decide

/-! ## Decoding: words written bit by bit, bits [31:9], Z, OP [7:0] (R84, R85) -/

theorem test_decode_crc : decodeWord 0b00000000000000000000000_0_00000001#32 = .ok (.crc false) := by decide
theorem test_decode_crc_z : decodeWord 0b00000000000000000000000_1_00000001#32 = .ok (.crc true) := by decide
theorem test_decode_enc_data : decodeWord 0b00000000000000000000000_0_00000010#32 = .ok .encData := by decide
theorem test_decode_enc_ack : decodeWord 0b00000000000000000000000_0_00000011#32 = .ok .encAck := by decide
theorem test_decode_enc_hb : decodeWord 0b00000000000000000000000_0_00000100#32 = .ok .encHb := by decide
theorem test_decode_decode : decodeWord 0b00000000000000000000000_0_00000101#32 = .ok .decode := by decide
theorem test_decode_classify : decodeWord 0b00000000000000000000000_0_00000110#32 = .ok .classify := by decide
theorem test_decode_op7 : decodeWord 0b00000000000000000000000_0_00000111#32 = .error .badOpcode := by decide
theorem test_decode_bit9 : decodeWord 0b00000000000000000000001_0_00000001#32 = .error .reservedBits := by decide
theorem test_decode_z_hb : decodeWord 0b00000000000000000000000_1_00000100#32 = .error .zeroMaskNotCrc := by decide
theorem test_table_word : decodeTableWord 32 0x00000101 = some (.crc true) := by decide

/-! ## Commands, from the vectors -/

/-- V-C9. -/
theorem test_crc_check_value :
    let t := done (.crc false) (frameIn [0x31, 0x32, 0x33, 0x34, 0x35, 0x36, 0x37, 0x38, 0x39])
    t.regs.crcOut = 0x4B37#16 ∧ t.statusWord = 0x00000102#32 := by decide +kernel

/-- V-C14: seven bytes, only byte 6 is there to be masked. -/
theorem test_crc_z_partial :
    (done (.crc true) (frameIn [0x01, 0x02, 0x10, 0xE1, 0x00, 0x2A, 0x66])).regs.crcOut = 0xBDE2#16 := by decide +kernel

/-- V-F1. -/
theorem test_enc_data :
    let t := done .encData { start [] with regs := fieldsF1 }
    t.bufSeq 0 30 = frameF1 ∧ t.regs.len = 0x001E#16 ∧ t.regs.crcOut = 0x354B#16 ∧
      t.statusWord = 0x00000202#32 := by decide +kernel

/-- V-E4. -/
theorem test_enc_data_negative :
    let t := done .encData { start [] with regs := { DataRegs.zero with fldLat := 0x80000000#32 } }
    t.bufSeq 0 12 = [0x01, 0x01, 0x00, 0x00, 0x00, 0x00, 0xC0, 0x20, 0x00, 0x00, 0x80, 0x00] := by decide +kernel

/-- V-E6. -/
theorem test_enc_ack_flags :
    let g := { DataRegs.zero with fldDevid := 0x10E1#16, fldSeq := 0x002A#16, fldFlags := 0xFFFF#16 }
    let t := done .encAck { start [] with regs := g }
    t.bufSeq 0 10 = frameF2 ∧ t.regs.fldFlags = 0xFFFF#16 ∧ t.statusWord = 0x00000302#32 := by decide +kernel

/-- V-E8. -/
theorem test_enc_ack_rest :
    let s := { start [] with
      buf := Memory.setBytes [] 0 (List.replicate 16 0xAA#8)
      regs := { DataRegs.zero with fldDevid := 0x10E1#16, fldSeq := 0x002A#16 } }
    (done .encAck s).windowWord 2 = 0x0000AAAA#32 ∧ (done .encAck s).windowWord 3 = 0xAAAAAAAA#32 := by decide +kernel

/-- V-F3. -/
theorem test_enc_hb :
    let g := { DataRegs.zero with fldDevid := 0x10E1#16, fldSeq := 0x002B#16, fldFlags := 0x0001#16 }
    let t := done .encHb { start [] with regs := g }
    t.bufSeq 0 10 = [0x01, 0x03, 0x10, 0xE1, 0x00, 0x2B, 0xF6, 0x20, 0x00, 0x01] ∧
      t.statusWord = 0x00000402#32 := by decide +kernel

/-- V-D1. -/
theorem test_decode_data :
    let t := done .decode (frameIn frameF1)
    t.statusWord = 0x00000502#32 ∧
      t.regs = { fieldsF1 with
        len := 30#16, crcOut := 0x354B#16, fldVer := 0x01#8, fldType := 0x01#8, fldCsum := 0x354B#16 } := by decide +kernel

/-- V-D19: the version is checked before the DATA length. -/
theorem test_decode_order :
    let t := done .decode (frameIn [0x02, 0x01, 0x10, 0xE1, 0x00, 0x2A, 0x5A, 0x34, 0x00, 0x04])
    t.statusWord = 0x00000532#32 ∧ t.regs.crcOut = 0x5A34#16 ∧ t.regs.fldType = 0x00#8 := by decide +kernel

/-- V-W6. -/
theorem test_classify_last_fresh :
    let t := done .classify (ring 0 32767)
    t.regs.seqRes = 0x17FFF#17 ∧ t.regs.seqLoss = 32766#16 ∧ t.statusWord = 0x00000602#32 := by decide +kernel

/-- V-W10. -/
theorem test_classify_half :
    let t := done .classify (ring 65535 32767)
    t.regs.seqRes = 0x08000#17 ∧ t.regs.seqLoss = 0#16 := by decide +kernel

/-! ## The interface, from the vectors, one step each -/

/-- V-I5. -/
theorem test_illegal_command :
    let t := got (step (start [.write 0x0008 0x00000102]))
    t.statusWord = 0x00000282#32 ∧ t.cmd = 0x00000102#32 ∧ t.response = some (.write .okay) := by decide

/-- V-I10. -/
theorem test_illegal_before_len_range :
    (got (step { start [.write 0x0008 0x00000105] with
      regs := { DataRegs.zero with len := 0x0100#16 } })).statusWord = 0x00000582#32 := by decide

/-- V-I9. -/
theorem test_len_range :
    (got (step { start [.write 0x0008 0x00000005] with
      regs := { DataRegs.zero with len := 0x0100#16 } })).statusWord = 0x00000592#32 := by decide

/-- V-I12. -/
theorem test_bus_error :
    (got (step (start [.write 0x8040 0x12345678]))).response = some (.write .error) ∧
      (got (step (start [.read 0x0028]))).response = some (.read .error 0) ∧
      (got (step (start [.read 0x0002]))).response = some (.read .error 0) := by decide

/-- V-I15. -/
theorem test_soft_reset :
    let t := got (step { start [.write 0x0000 0x00000003] with regs := fieldsF1 })
    t.ctrlWord = 0#32 ∧ t.regs = DataRegs.zero ∧ t.buf = [] := by decide

/-- V-I18: a write while BUSY. -/
theorem test_busy_write :
    let t := got (step (ackInFlight [.write 0x0008 0x00000004]))
    t.statusWord = 0x00000005#32 ∧ t.cmd = 0x00000003#32 := by decide

/-- V-I18: the completion after an ignored write. -/
theorem test_completion :
    let t := got (step { ackInFlight [] with werr := true })
    t.statusWord = 0x00000306#32 ∧ t.windowWord 1 = 0x002A66D1#32 := by decide +kernel

/-- V-I19. -/
theorem test_irq :
    State.irq { ackInFlight [] with ie := true } = false ∧
      (got (step { ackInFlight [] with ie := true })).irq = true := by decide

/-- The register write of V-E7 (R38). -/
theorem test_register_width :
    (got (step (start [.write 0x0048 0x000110E1]))).readReg (.data .fldDevid) = 0x000010E1#32 := by decide

/-- P2's WRBUF of the last two bytes of V-F1: the word 0x55000000 at 0x801C (R91). -/
theorem test_wrbuf : (HostOp.wrbuf 28 [0x55, 0x00]).expand = [.write 0x801C 0x55000000] := by decide

/-- The step runs a command placed where the host writes it, as the first after reset. -/
theorem test_first_command : (got (step (State.reset.withFetchWord 32 6))).busy = true := by decide

/-! ## Witnesses: states and operands that meet the hypotheses of the statements -/

theorem witness_ResetEventSetsEveryRegister :
    (ackInFlight [.hwReset]).inputs = .hwReset :: [] ∧
      ∃ d : Word, d.getLsbD 0 = true ∧ (ackInFlight [.write 0x0000 3]).inputs = .write 0x0000#16 d :: [] :=
  ⟨rfl, 3#32, by decide, rfl⟩

/-- The invariant holds with a command in flight, and the step goes on. -/
theorem witness_StepKeepsInv : ∃ s t : State, s.Inv ∧ s.busy = true ∧ step s = .next t := by
  refine ⟨ackInFlight [], _, ⟨by decide, by decide, by decide, by decide, by decide, ?_, ?_, ?_, by decide,
    ⟨0#16, by decide, by decide⟩, by decide⟩, by decide, rfl⟩ <;> intro p n h <;> cases h
  · rfl
  · decide
  · rfl

theorem witness_StepRunsTheDecodedCommand :
    (start [.write 0x0008 6]).inputs = .write 0x0008#16 6#32 :: [] ∧ (start []).eng = .idle ∧
      (ackInFlight [.write 0x0008 6]).inputs = .write 0x0008#16 6#32 :: [] ∧ (ackInFlight []).busy = true ∧
      decodeWord 6#32 = .ok .classify := by decide

/-- The two ends of BUF_BYTES meet R10, and the map at its edges is the table's. -/
theorem witness_AddressMapIsTheTable :
    Params.wf { Params.default with bufBytes := 32 } = true ∧
      Params.wf { Params.default with bufBytes := 32768 } = true ∧
      addrTarget Params.default 0x0024 ≠ none ∧ addrTarget Params.default 0x0028 = none ∧
      addrTarget Params.default 0x003C = none ∧ addrTarget Params.default 0x0040 ≠ none ∧
      addrTarget Params.default 0x0074 ≠ none ∧ addrTarget Params.default 0x0078 = none ∧
      addrTarget Params.default 0x7FFC = none ∧ addrTarget Params.default 0x8000 ≠ none ∧
      addrTarget Params.default 0x803C ≠ none ∧ addrTarget Params.default 0x8040 = none := by decide

theorem witness_UnmappedAccessGetsError :
    (0x0003#16).toNat % 4 ≠ 0 ∧ addrTarget (start []).params 0x8040 = none ∧
      (start [.read 0x0003]).inputs = .read 0x0003#16 :: [] ∧
      (start [.write 0x8040 1]).inputs = .write 0x8040#16 1#32 :: [] := by decide

theorem witness_ReadChangesNothing :
    (ackInFlight [.read 0x800C]).inputs = .read 0x800C#16 :: [] ∧
      addrTarget (ackInFlight []).params 0x800C = some (.window 3) ∧
      (ackInFlight []).inFlight (.window 3) = false := by decide

/-- The last BUF word of ENC_ACK's write set and the first one past it. -/
theorem witness_BusyReadOfWriteSetIsADraw :
    addrTarget (ackInFlight []).params 0x8008 = some (.window 2) ∧ Instr.writesTarget .encAck (.window 2) = true ∧
      addrTarget (ackInFlight []).params 0x800C = some (.window 3) ∧ Instr.writesTarget .encAck (.window 3) = false ∧
      ∃ p, (ackInFlight [.read 0x8008]).eng = .busy p 1 :=
  ⟨by decide, by decide, by decide, by decide, _, rfl⟩

theorem witness_RegisterWriteStoresItsBits :
    DataReg.fldBatt ∉ readOnlyRegs ∧ (start []).eng = .idle ∧
      (start [.write 0x0070 0x1FF]).inputs =
        .write (BitVec.ofNat 16 (Reg.offset (.data .fldBatt))) 0x1FF#32 :: [] := by decide

theorem witness_ReadOnlyWritesAreIgnored :
    DataReg.fldVer ∈ readOnlyRegs ∧
      (ackInFlight [.write 0x0040 9]).inputs = .write (BitVec.ofNat 16 (Reg.offset (.data .fldVer))) 9#32 :: [] ∧
      (start [.write 0x000C 0]).inputs = .write (BitVec.ofNat 16 (Reg.offset .cap)) 0#32 :: [] ∧
      (start [.write 0x0004 0]).inputs = .write 0x0004#16 0#32 :: [] := by decide

/-- The first and the last window word. -/
theorem witness_WindowWordIsBigEndian :
    (start []).params.wf = true ∧ 4 * 0 < (start []).params.bufBytes ∧ 4 * 15 < (start []).params.bufBytes ∧
      ¬ 4 * 16 < (start []).params.bufBytes ∧
      (start [.read 0x8000]).inputs = .read (BitVec.ofNat 16 (0x8000 + 4 * 0)) :: [] ∧
      (start []).inFlight (.window 0) = false ∧ (start []).eng = .idle ∧
      (start [.write 0x803C 1]).inputs = .write (BitVec.ofNat 16 (0x8000 + 4 * 15)) 1#32 :: [] := by decide

theorem witness_BusyWritesOnlySetWerr :
    addrTarget (ackInFlight []).params 0x0010 = some (.reg (.data .len)) ∧
      addrTarget (ackInFlight []).params 0x0000 = some (.reg .ctrl) ∧
      (ackInFlight [.write 0x0010 1]).inputs = .write 0x0010#16 1#32 :: [] ∧
      (ackInFlight [.write 0x0000 2]).inputs = .write 0x0000#16 2#32 :: [] ∧
      (ackInFlight [.read 0x0010]).inputs = .read 0x0010#16 :: [] ∧ ∃ p, (ackInFlight []).eng = .busy p 1 :=
  ⟨by decide, by decide, by decide, by decide, by decide, _, rfl⟩

theorem witness_CtrlWriteSetsIeOrResets :
    (start [.write 0x0000 2]).inputs = .write 0x0000#16 2#32 :: [] ∧ (2#32).getLsbD 0 = false ∧
      (start [.write 0x0000 3]).inputs = .write 0x0000#16 3#32 :: [] ∧ (3#32).getLsbD 0 = true := by decide

theorem witness_StatusWordAndWriteOneToClear :
    (start []).eng = .idle ∧ (start [.write 0x0004 6]).inputs = .write 0x0004#16 6#32 :: [] := by decide

theorem witness_CapIsConstant : (start []).params.bufBytes = 64 ∧ ∃ t, step (start []) = .next t := ⟨rfl, _, rfl⟩

/-- Each way to be illegal, at an edge: OP 0, OP 7, Z on ENC_DATA, bit 9. -/
theorem witness_IllegalWordIsRejected :
    (start [.write 0x0008 0]).eng = .idle ∧ opField 0x00000000#32 = 0x00#8 ∧ 0x07 ≤ (opField 0x00000007#32).toNat ∧
      (0x00000102#32).getLsbD 8 = true ∧ opField 0x00000102#32 ≠ 0x01#8 ∧
      (0x00000201#32).extractLsb' 9 23 ≠ 0#23 := by decide

/-- LEN at BUF_BYTES and one past it; a word that is illegal and one that is not. -/
theorem witness_CmdWriteIsRejectedOrAccepted :
    illegalWord 0x00000105#32 ∧ ¬ illegalWord 0x00000005#32 ∧ opField 0x00000005#32 = 0x05#8 ∧
      (State.reset.params.bufBytes < (65#16).toNat) ∧ ¬ (State.reset.params.bufBytes < (64#16).toNat) ∧
      (start [.write 0x0008 5]).eng = .idle := by
  refine ⟨.inr (.inl (by decide)), ?_, by decide, by decide, by decide, by decide⟩
  rintro ((h | h) | h | h) <;> revert h <;> decide

theorem witness_AcceptedCommandHoldsItsPendingResult :
    (start [.write 0x0008 1]).inputs = .write 0x0008#16 (encode (.crc false)) :: [] ∧ (start []).eng = .idle ∧
      (State.regs { start [] with regs := { DataRegs.zero with len := 64#16 } }).len.toNat ≤
        (start []).params.bufBytes ∧ (start []).latencies = 0 :: [] := by decide

/-- A pending result that writes a register once and a byte once. -/
theorem witness_CompletionAppliesThePendingResult :
    let p : Pending := ⟨.encAck, ⟨[.reg .len 10#32, .buf 0 0x01#8], .ok⟩⟩
    (State.eng { start [.engine] with eng := .busy p 1 }) = .busy p 1 ∧
      (start [.engine]).inputs = .engine :: [] ∧ (start []).inputs = [] ∧
      EngWrite.reg .len 10#32 ∈ p.res.writes ∧ (∀ v', EngWrite.reg .len v' ∈ p.res.writes → v' = 10#32) ∧
      EngWrite.buf 0 0x01#8 ∈ p.res.writes ∧ (∀ b', EngWrite.buf 0 b' ∈ p.res.writes → b' = 0x01#8) ∧
      (∀ v, EngWrite.reg .crcOut v ∉ p.res.writes) ∧ (∀ b, EngWrite.buf 1 b ∉ p.res.writes) := by
  refine ⟨rfl, rfl, rfl, by simp, by simp, by simp, by simp, by simp, by simp⟩

theorem witness_CommandInFlightCompletes :
    ∃ p, (ackInFlight []).eng = .busy p (0 + 1) ∧ (ackInFlight []).inputs = [] := ⟨_, rfl, rfl⟩

/-- A read, an ignored write, a write of CTRL, an engine step and the completing one. -/
theorem witness_HostCannotDisturbTheCommandInFlight :
    let evs : List Event := [.read 0x8000, .write 0x0008 6, .write 0x0000 2, .engine]
    (∃ p, State.eng { ackInFlight (evs ++ [.engine]) with
      eng := .busy ⟨.encAck, commandResult .encAck (ackInFlight [])⟩ 2 } = .busy p (1 + 1)) ∧
      (ackInFlight (evs ++ [.engine])).inputs = evs ++ .engine :: [] ∧
      (∀ e, e ∈ evs → e.isReset = false ∧ e.isWait = false) ∧ (evs.filter Event.isEngine).length = 1 :=
  ⟨⟨_, rfl⟩, by decide, by decide, by decide⟩

theorem witness_IrqIsALevel :
    (start []).eng = .idle ∧ (2#32).getLsbD 1 = true ∧ (1#32).getLsbD 1 = false ∧
      (start [.hwReset]).resetsNext = true ∧ (got (step (start [.write 0x0008 6]))).busy = true ∧
      ∃ t, step (start [.write 0x0004 2]) = .next t :=
  ⟨by decide, by decide, by decide, by decide, by decide, _, rfl⟩

/-- DONE rises by a completion and by a rejection; IRQ rises by the write of IE. -/
theorem witness_DoneAndIrqRiseOnlyByTheirCauses :
    (ackInFlight []).done = false ∧ (got (step (ackInFlight []))).done = true ∧
      (start []).done = false ∧ (got (step (start [.write 0x0008 0]))).done = true ∧
      (State.irq { start [.write 0x0000 2] with done := true } = false ∧
        (got (step { start [.write 0x0000 2] with done := true })).irq = true) := by decide

theorem ackInFlight_inv (evs : List Event) : (ackInFlight evs).Inv := by
  refine ⟨?_, ?_, ?_, ?_, ?_, ?_, ?_, ?_, ?_, ⟨0#16, ?_, ?_⟩, ?_⟩
  · exact test_wf_default
  · exact List.Pairwise.nil
  · intro c hc; cases hc
  · intro _; rfl
  · intro _; exact Nat.le_refl 1
  · intro p n h; cases h; rfl
  · intro p n h hc; cases h; cases hc
  · intro p n h
    cases h
    show 0x00000003#32 = encode .encAck
    decide
  · exact .inl rfl
  · rfl
  · rfl
  · exact Nat.zero_lt_one

theorem witness_RegistersChangeOnlyByTheirWriters :
    (ackInFlight []).Inv ∧ (ackInFlight []).resetsNext = false ∧
      (got (step (ackInFlight []))).regs.crcOut ≠ (ackInFlight []).regs.crcOut ∧
      (got (step (ackInFlight []))).regs.len ≠ (ackInFlight []).regs.len :=
  ⟨ackInFlight_inv [], by decide +kernel, by decide +kernel, by decide +kernel⟩

/-- The invariant of an idle state with nothing in the verdict registers, FLD_VER 0 and the parameters of R10. -/
theorem idle_inv {s : State} (hi : s.eng = .idle) (hp : s.params = Params.default) (hb : s.buf.wf)
    (hw : s.buf.within 64) (hv : s.regs.fldVer = 0#8) (hr : s.regs.seqRes = 0#17) (hl : s.regs.seqLoss = 0#16)
    (hd : s.bufSeed < s.draws) : s.Inv := by
  have hn : s.busy = false := State.busy_of_idle _ hi
  refine ⟨hp ▸ test_wf_default, hb, by rw [hp]; exact hw, by simp [hn], by simp [hn], ?_, ?_, ?_, .inl hv,
    ⟨0#16, hr.trans (by decide), hl.trans (by decide)⟩, hd⟩ <;> intro p n h <;> rw [hi] at h <;> cases h

/-- DECODE of V-F1 in flight with its last engine step to come. -/
def decodeInFlight : State :=
  { frameIn frameF1 with cmd := 0x00000005#32, eng := .busy ⟨.decode, commandResult .decode (frameIn frameF1)⟩ 1 }

theorem decodeInFlight_inv : decodeInFlight.Inv := by
  have h0 : (frameIn frameF1).Inv :=
    idle_inv rfl rfl (by decide +kernel) (by decide +kernel) (by decide) (by decide) (by decide) (by decide)
  refine ⟨h0.params, h0.bufSorted, h0.bufWithin, fun _ => rfl, fun _ => Nat.le_refl 1, ?_, ?_, ?_, h0.version,
    h0.verdict, h0.drawn⟩
  · intro p n h
    cases h
    exact (commandResult_congr (s := frameIn frameF1) (t := decodeInFlight) rfl rfl rfl rfl .decode).symm
  · intro p n h hc
    cases h
    show (BitVec.setWidth 16 (BitVec.ofNat 32 frameF1.length)).toNat ≤ 64
    decide
  · intro p n h
    cases h
    show 0x00000005#32 = encode .decode
    decide

/-- An idle write changes a header field register and a payload one, and so does a DECODE of V-F1 that reports OK. -/
theorem witness_FieldRegistersChange :
    (start [.write 0x0054 4]).Inv ∧ (start [.write 0x0054 4]).resetsNext = false ∧
      (got (step (start [.write 0x0054 4]))).readReg (.data .fldFlags) ≠ (start []).readReg (.data .fldFlags) ∧
      (start [.write 0x0074 1]).Inv ∧ (start [.write 0x0074 1]).resetsNext = false ∧
      (got (step (start [.write 0x0074 1]))).readReg (.data .fldStatus) ≠ (start []).readReg (.data .fldStatus) ∧
      decodeInFlight.Inv ∧ decodeInFlight.resetsNext = false ∧ (got (step decodeInFlight)).result = .ok ∧
      decodeInFlight.bufByte 1 = decodeInFlight.params.mtData ∧
      (got (step decodeInFlight)).readReg (.data .fldDevid) ≠ decodeInFlight.readReg (.data .fldDevid) ∧
      (got (step decodeInFlight)).readReg (.data .fldLat) ≠ decodeInFlight.readReg (.data .fldLat) :=
  ⟨idle_inv rfl rfl (by decide) (by decide) rfl rfl rfl (by decide), by decide, by decide,
    idle_inv rfl rfl (by decide) (by decide) rfl rfl rfl (by decide), by decide, by decide,
    decodeInFlight_inv, by decide, by decide +kernel, by decide +kernel, by decide +kernel, by decide +kernel⟩

/-- Each clause: LAST_OP by a completion and RESULT by a rejection, CMD and BUSY by an acceptance, BUSY by a
completion, WERR set and cleared, DONE cleared in its two ways, IE. -/
theorem witness_StatusCmdAndCtrlChangeOnlyByTheirCauses :
    (ackInFlight []).resetsNext = false ∧ (got (step (ackInFlight []))).lastOp ≠ (ackInFlight []).lastOp ∧
      (got (step (ackInFlight []))).busy ≠ (ackInFlight []).busy ∧
      (got (step (start [.write 0x0008 0]))).result ≠ (start []).result ∧
      (got (step (start [.write 0x0008 6]))).cmd ≠ (start []).cmd ∧
      (got (step (start [.write 0x0008 6]))).busy ≠ (start []).busy ∧
      ((ackInFlight []).werr = false ∧ (got (step (ackInFlight [.write 0x0074 1]))).werr = true) ∧
      (got (step { start [.write 0x0004 4] with werr := true })).werr = false ∧
      (got (step { start [.write 0x0004 2] with done := true })).done = false ∧
      (got (step { start [.write 0x0008 6] with done := true })).done = false ∧
      (start [.write 0x0000 2]).resetsNext = false ∧
      (got (step (start [.write 0x0000 2]))).ie ≠ (start []).ie := by decide +kernel

/-- The byte 0 of an ACK over a written 0xAA, by the encoder and by the window. -/
theorem witness_BufChangesOnlyByWindowOrEncoder :
    let s := State.writeWindow (start [.write 0x8000 0x01000000]) 0 0xAAAAAAAA#32
    let u := State.writeWindow (start []) 0 0xAAAAAAAA#32
    let v := { u with cmd := 0x00000003#32, eng := .busy ⟨.encAck, commandResult .encAck u⟩ 1 }
    (s.Inv ∧ s.resetsNext = false ∧ (got (step s)).bufByte 0 ≠ s.bufByte 0) ∧
      (v.Inv ∧ v.resetsNext = false ∧ (got (step v)).bufByte 0 ≠ v.bufByte 0) := by
  refine ⟨⟨idle_inv rfl rfl (by decide) (by decide) rfl rfl rfl (by decide), by decide, by decide⟩,
    ⟨?_, by decide, by decide +kernel⟩⟩
  refine ⟨test_wf_default, by decide, by decide, fun _ => rfl, fun _ => Nat.le_refl 1, ?_, ?_, ?_, .inl rfl,
    ⟨0#16, by decide, by decide⟩, by decide⟩ <;> intro p n h <;> cases h
  · rfl
  · intro hc; cases hc
  · rfl

/-- LEN at BUF_BYTES and one past it. -/
theorem witness_CrcWritesTheChecksumOfTheBuffer :
    (start []).eng = .idle ∧ (64#16).toNat ≤ (start []).params.bufBytes ∧
      (start []).params.bufBytes < (65#16).toNat := by decide

theorem witness_Encoders :
    (start []).eng = .idle ∧ ((.encData, 30) ∈ encoders ∧ (.encAck, 10) ∈ encoders ∧ (.encHb, 10) ∈ encoders) ∧
      (∀ r, r ∈ fieldRegs → (State.readReg { start [] with werr := true } (.data r)) = (start []).readReg (.data r)) ∧
      ∃ t, exec .encAck { start [] with werr := true } = .next t := ⟨by decide, by decide, by decide, _, rfl⟩

theorem witness_DecodeChecksInOrder :
    (frameIn frameF2).eng = .idle ∧ (frameIn frameF2).regs.len.toNat ≤ (frameIn frameF2).params.bufBytes ∧
      (start []).params.bufBytes < (65#16).toNat := by decide

/-- V-F1 (DATA, 30 bytes) and V-F2 (header only, 10 bytes) both meet the conditions of a successful DECODE. -/
theorem witness_DecodeOkWritesTheFields :
    let s := frameIn frameF1
    let t := frameIn frameF2
    (s.eng = .idle ∧ s.regs.len.toNat ≤ s.params.bufBytes ∧ 10 ≤ s.regs.len.toNat ∧
      fcrc (s.bufSeq 0 s.regs.len.toNat) = s.buf16 6 ∧ s.bufByte 0 = 0x01#8 ∧ s.bufByte 1 = s.params.mtData ∧
      30 ≤ s.regs.len.toNat) ∧
    (t.eng = .idle ∧ t.regs.len.toNat ≤ t.params.bufBytes ∧ 10 ≤ t.regs.len.toNat ∧
      fcrc (t.bufSeq 0 t.regs.len.toNat) = t.buf16 6 ∧ t.bufByte 0 = 0x01#8 ∧ t.bufByte 1 ≠ t.params.mtData) := by
  decide +kernel

/-- V-D4, of nine bytes: TOO_SHORT. -/
theorem witness_DecodeFailureKeepsTheFields :
    let s := frameIn (frameF2.take 9)
    s.eng = .idle ∧ s.regs.len.toNat ≤ s.params.bufBytes ∧ (done .decode s).result ≠ .ok ∧
      (10 ≤ (frameIn frameF2).regs.len.toNat) := by decide +kernel

/-- Two buffers that differ at byte LEN. -/
theorem witness_BytesPastLenDoNotMatter :
    let s := (frameIn frameF2).setBuf 10 0x00#8
    let t := (frameIn frameF2).setBuf 10 0xFF#8
    t.params = s.params ∧ t.regs = s.regs ∧ (∀ i, i < s.regs.len.toNat → t.bufByte i = s.bufByte i) ∧
      t.bufByte 10 ≠ s.bufByte 10 := by decide +kernel

theorem witness_EncodeThenDecodeRecoversTheFields : (start []).eng = .idle ∧ (start []).params.wf = true := by decide

/-- The first bit and the last bit of V-F2, and the two ends of its checksum field. -/
theorem witness_SingleBitFlipIsDetected :
    let s := frameIn frameF2
    s.eng = .idle ∧ 10 ≤ s.regs.len.toNat ∧ s.regs.len.toNat ≤ s.params.bufBytes ∧
      fcrc (s.bufSeq 0 s.regs.len.toNat) = s.buf16 6 ∧ (0 < s.regs.len.toNat ∧ 0 < 8) ∧
      (6 < s.regs.len.toNat ∧ 7 < 8) ∧ (7 < s.regs.len.toNat ∧ 0 < 8) ∧ (9 < s.regs.len.toNat ∧ 7 < 8) := by
  decide +kernel

theorem witness_AckAfterDecodeEchoes :
    (frameIn frameF1).eng = .idle ∧ (got (exec .decode (frameIn frameF1))).finish.result = .ok ∧
      (got (exec .decode (frameIn frameF1))).busy = true ∧ ∃ t, exec .decode (frameIn frameF1) = .next t :=
  ⟨by decide +kernel, by decide +kernel, by decide +kernel, _, rfl⟩

/-- The edges of the ring: distances 0, 32767, 32768 and 65535. -/
theorem witness_ClassifyReportsTheVerdict :
    (ring 0 0).eng = .idle ∧ 0 = ((ring 0 0).regs.seqIn.toNat + 65536 - (ring 0 0).regs.seqLast.toNat) % 65536 ∧
      32767 = ((ring 0 32767).regs.seqIn.toNat + 65536 - (ring 0 32767).regs.seqLast.toNat) % 65536 ∧
      32768 = ((ring 0 32768).regs.seqIn.toNat + 65536 - (ring 0 32768).regs.seqLast.toNat) % 65536 ∧
      65535 = ((ring 1 0).regs.seqIn.toNat + 65536 - (ring 1 0).regs.seqLast.toNat) % 65536 := by decide

theorem witness_TwoDirectionsOfTheRing : (0#16 : Half) ≠ 32768#16 ∧ (0#16 : Half) ≠ 1#16 := by decide

theorem witness_ReplayIsStale :
    (ring 0 42).eng = .idle ∧ (got (exec .classify (ring 0 42))).finish.regs.seqRes.getLsbD 16 = true ∧
      ∃ t, exec .classify (ring 0 42) = .next t := ⟨by decide, by decide, _, rfl⟩

/-- Three bytes into the last word of BUF. -/
theorem witness_WrbufFillsTheBuffer :
    (start []).eng = .idle ∧ (start []).params.wf = true ∧ 60 % 4 = 0 ∧
      60 + [1#8, 2#8, 3#8].length ≤ (start []).params.bufBytes ∧
      (start [.write 0x803C 0x01020300]).inputs = (HostOp.wrbuf 60 [1#8, 2#8, 3#8]).expand ++ [] := by decide

theorem witness_WaitEndsAtTheCompletion :
    ∃ p, (ackInFlight [.wait]).eng = .busy p (0 + 1) ∧ (ackInFlight [.wait]).inputs = .wait :: [] := ⟨_, rfl, rfl⟩

end Sys2Proof.Tests
end

section
/-! PROOF of `Obligations.StepKeepsInv` (O4). The invariant is cut in two: what the block stores, and what holds of a
command in flight. Each effect of a step (`StepEffect`, `IdleEffect`) then has to keep its part alone. -/

namespace Sys2Proof.Machine

/-! ## The invariant in two parts -/

/-- The part of `State.Inv` about what is stored (parameters, BUF, registers), whatever the engine does. -/
structure Stored (p : Params) (m : Memory) (g : DataRegs) : Prop where
  params : p.wf = true
  bufSorted : m.wf
  bufWithin : m.within p.bufBytes
  version : g.fldVer = 0#8 ∨ g.fldVer = Config.protocolVersion
  verdict : ∃ d : Half, g.seqRes = seqResOf d ∧ g.seqLoss = seqLossOf d

/-- The part of `State.Inv` about a command in flight, with `n` engine steps left. -/
structure State.FlightOk (s : State) (p : Pending) (n : Nat) : Prop where
  doneClear : s.done = false
  latency : 1 ≤ n
  snapshot : p.res = commandResult p.instr s
  lenInRange : Instr.checksLen p.instr = true → s.regs.len.toNat ≤ s.params.bufBytes
  cmdInFlight : s.cmd = encode p.instr

theorem State.inv_iff (s : State) :
    s.Inv ↔ Stored s.params s.buf s.regs ∧ s.bufSeed < s.draws ∧ ∀ p n, s.eng = .busy p n → s.FlightOk p n := by
  constructor
  · intro h
    refine ⟨⟨h.params, h.bufSorted, h.bufWithin, h.version, h.verdict⟩, h.drawn, fun p n he => ?_⟩
    have hb : s.busy = true := s.busy_of_eng he
    exact ⟨h.doneClear hb, s.remaining_of_eng he ▸ h.latency hb, h.snapshot p n he, h.lenInRange p n he,
      h.cmdInFlight p n he⟩
  · rintro ⟨hs, hd, hf⟩
    refine ⟨hs.params, hs.bufSorted, hs.bufWithin, fun hb => ?_, fun hb => ?_, fun p n he => (hf p n he).snapshot,
      fun p n he => (hf p n he).lenInRange, fun p n he => (hf p n he).cmdInFlight, hs.version, hs.verdict, hd⟩ <;>
      obtain ⟨p, n, he⟩ := s.busy_eq_true_iff.1 hb
    · exact (hf p n he).doneClear
    · exact s.remaining_of_eng he ▸ (hf p n he).latency

theorem State.Inv.stored {s : State} (h : s.Inv) : Stored s.params s.buf s.regs := (s.inv_iff.1 h).1

theorem State.Inv.flight {s : State} (h : s.Inv) {p : Pending} {n : Nat} (he : s.eng = .busy p n) : s.FlightOk p n :=
  (s.inv_iff.1 h).2.2 p n he

/-- With the engine idle the stored part is the whole invariant. -/
theorem State.inv_of_idle {s : State} (hi : s.eng = .idle) (hs : Stored s.params s.buf s.regs)
    (hd : s.bufSeed < s.draws) : s.Inv :=
  s.inv_iff.2 ⟨hs, hd, fun p n he => by rw [hi] at he; cases he⟩

/-! ## What is stored -/

theorem Params.bufBytes_ge {p : Params} (h : p.wf = true) : 32 ≤ p.bufBytes := by
  simp only [Params.wf, Params.bufBytesOk, Bool.and_eq_true, decide_eq_true_eq] at h
  exact h.1.2.1

/-- The reset values (R44): SEQ_RES = 0 and SEQ_LOSS = 0 report the distance 0. -/
theorem Stored.zero {p : Params} (hp : p.wf = true) : Stored p [] DataRegs.zero :=
  ⟨hp, List.Pairwise.nil, List.forall_mem_nil _, .inl rfl, 0#16, by decide, by decide⟩

theorem Stored.setBytes {p : Params} {m : Memory} {g : DataRegs} (h : Stored p m g) {a : Nat} {f : List Byte}
    (ha : a + f.length ≤ p.bufBytes) : Stored p (m.setBytes a f) g :=
  { h with
    bufSorted := Memory.wf_setBytes h.bufSorted a f
    bufWithin := Memory.within_setBytes h.bufWithin a f ha }

/-- FLD_VER, SEQ_RES and SEQ_LOSS are read-only (R39), so no host write to a register reaches what is constrained. -/
theorem Stored.set_of_hostWritable {p : Params} {m : Memory} {g : DataRegs} (h : Stored p m g) {r : DataReg}
    (hw : r.hostWritable = true) (v : Word) : Stored p m (g.set r v) := by
  obtain ⟨hp, hs, hb, hv, hd⟩ := h
  cases r
  case fldVer | seqRes | seqLoss => cases hw
  all_goals exact ⟨hp, hs, hb, hv, hd⟩

/-! ## The writes of a completion -/

/-- DECODE reports OK only for the one version (R111). -/
theorem version_of_decodeCode_ok {s : State} (h : decodeCode s = .ok) : s.bufByte 0 = Config.protocolVersion := by
  by_contra hne
  simp only [decodeCode, ne_eq, hne, not_false_eq_true, if_true] at h
  split_ifs at h

theorem decodedRegs_fldVer (s : State) : (decodedRegs s).fldVer = s.bufByte 0 := by
  unfold decodedRegs; dsimp only; split <;> rfl

theorem decodedRegs_seqRes (s : State) : (decodedRegs s).seqRes = s.regs.seqRes := by
  unfold decodedRegs; dsimp only; split <;> rfl

theorem decodedRegs_seqLoss (s : State) : (decodedRegs s).seqLoss = s.regs.seqLoss := by
  unfold decodedRegs; dsimp only; split <;> rfl

/-- A frame fits in BUF, because BUF_BYTES ≥ 32 (R10). -/
theorem Stored.applyEncoder {s : State} (h : Stored s.params s.buf s.regs) {f : List Byte} (hf : f.length ≤ 30)
    (c : Half) : Stored s.params (s.applyWrites (encoderResult f c).writes).buf
      (s.applyWrites (encoderResult f c).writes).regs := by
  have hp := Params.bufBytes_ge h.params
  rw [applyWrites_encoder]
  exact { h.setBytes (a := 0) (f := f) (by omega) with }

/-- DECODE writes FLD_VER only after its version check, and neither SEQ_RES nor SEQ_LOSS. -/
theorem Stored.applyDecode {s : State} (h : Stored s.params s.buf s.regs) :
    Stored s.params (s.applyWrites (decodeResult s).writes).buf (s.applyWrites (decodeResult s).writes).regs := by
  rw [applyWrites_decode]
  by_cases hok : decodeCode s = .ok
  · rw [if_pos hok]
    refine { h with version := .inr ?_, verdict := ?_ }
    · exact (decodedRegs_fldVer s).trans (version_of_decodeCode_ok hok)
    · simpa only [decodedRegs_seqRes, decodedRegs_seqLoss] using h.verdict
  · rw [if_neg hok]
    exact { h with }

/-- The writes of every command keep the stored part. -/
theorem Stored.applyCommand {s : State} (h : Stored s.params s.buf s.regs) (i : Instr) :
    Stored s.params (s.applyWrites (commandResult i s).writes).buf
      (s.applyWrites (commandResult i s).writes).regs := by
  cases i with
  | crc z =>
    simp only [commandResult, applyWrites_crc]
    exact { h with }
  | encData => exact h.applyEncoder (by simp) _
  | encAck => exact h.applyEncoder (by simp) _
  | encHb => exact h.applyEncoder (by simp) _
  | decode => exact h.applyDecode
  | classify =>
    simp only [commandResult, applyWrites_classify]
    exact { h with verdict := ⟨_, rfl, rfl⟩ }

/-! ## What each effect keeps -/

/-- The invariant does not speak of IE, WERR, the response and the events to come; draws may be taken, and the latency
may fall while it stays at least 1. -/
theorem State.Inv.frame {s : State} (h : s.Inv) {e : Eng} {k : Nat} (hk : s.draws ≤ k)
    (he : e = s.eng ∨ ∃ p n, s.eng = .busy p (n + 2) ∧ e = .busy p (n + 1))
    (ie werr : Bool) (rs : Option BusResponse) (ins : List Event) :
    State.Inv { s with eng := e, draws := k, ie := ie, werr := werr, response := rs, inputs := ins } := by
  refine (State.inv_iff _).2 ⟨h.stored, h.drawn.trans_le hk, fun p n (hn : e = .busy p n) => ?_⟩
  have hf : ∃ m, s.FlightOk p m ∧ 1 ≤ n := by
    rcases he with rfl | ⟨q, m, hs, rfl⟩
    · exact ⟨n, h.flight hn, (h.flight hn).latency⟩
    · cases hn
      exact ⟨m + 2, h.flight hs, by omega⟩
  obtain ⟨m, hf, hn1⟩ := hf
  exact ⟨hf.doneClear, hn1, hf.snapshot.trans (by apply commandResult_congr <;> rfl), hf.lenInRange,
    hf.cmdInFlight⟩

/-- The event taken off and the response given leave the invariant. -/
theorem State.Inv.with_access {s : State} (h : s.Inv) (rs : Option BusResponse) (ins : List Event) :
    State.Inv { s with response := rs, inputs := ins } :=
  h.frame (le_refl _) (.inl rfl) s.ie s.werr rs ins

theorem State.Inv.resetBlock {s : State} (h : s.Inv) : s.resetBlock.Inv :=
  State.inv_of_idle rfl (Stored.zero h.params) (Nat.lt_succ_self s.draws)

/-- A completion applies what the command's rule gives on the present state, by `snapshot`. -/
theorem State.Inv.complete {s : State} (h : s.Inv) : s.complete.Inv := by
  cases he : s.eng with
  | idle => rwa [State.complete_of_idle s he]
  | busy p n =>
    have hs := h.stored.applyCommand p.instr
    rw [← (h.flight he).snapshot] at hs
    rw [State.complete_of_eng s he]
    refine State.inv_of_idle rfl ?_ ?_
    · simpa using hs
    · simpa using h.drawn

theorem State.Inv.accept {s : State} (h : s.Inv) {i : Instr}
    (hl : Instr.checksLen i = true → s.regs.len.toNat ≤ s.params.bufBytes) :
    (s.accept i (commandResult i s)).Inv := by
  refine (State.inv_iff _).2 ⟨h.stored, Nat.lt_succ_of_lt h.drawn, fun p n he => ?_⟩
  cases he
  exact ⟨rfl, Nat.succ_pos _, by apply commandResult_congr <;> rfl, hl, rfl⟩

/-- A window word that an address names lies in BUF (R52), so its four bytes do. -/
theorem State.Inv.writeWindow {s : State} (h : s.Inv) (hi : s.eng = .idle) {a : Half} {k : Nat}
    (ht : addrTarget s.params a = some (.window k)) (d : Word) : (s.writeWindow k d).Inv := by
  have hk : 4 * k + 4 ≤ s.params.bufBytes := by
    rcases addrTarget_cases ht with ⟨r, hr, _⟩ | ⟨j, hj, _, hb⟩
    · cases hr
    · cases hj; exact hb
  exact State.inv_of_idle hi (h.stored.setBytes hk) h.drawn

/-- Every idle write keeps the invariant: all but an acceptance leave the engine idle. -/
theorem IdleEffect.inv {s t : State} {a : Half} {tg : Target} {d : Word} (he : IdleEffect s tg d t) (h : s.Inv)
    (hi : s.eng = .idle) (ht : addrTarget s.params a = some tg) : t.Inv := by
  cases he with
  | clear => exact State.inv_of_idle hi h.stored h.drawn
  | illegal => exact State.inv_of_idle hi h.stored h.drawn
  | lenRange => exact State.inv_of_idle hi h.stored h.drawn
  | accept _ i _ hl => exact h.accept hl
  | none => exact h
  | register r _ hw => exact State.inv_of_idle hi (h.stored.set_of_hostWritable hw d) h.drawn
  | window k hk => subst hk; exact h.writeWindow hi ht d

theorem StepEffect.inv {s t : State} (he : StepEffect s t) (h : s.Inv) : t.Inv := by
  cases he with
  | complete _ _ _ rest => exact (h.with_access s.response rest).complete
  | quiet e rs ins n hn he => exact h.frame hn he s.ie s.werr rs ins
  | reset rs ins => exact (h.with_access rs ins).resetBlock
  | ctrl d rs rest => exact h.frame (le_refl _) (.inl rfl) (d.getLsbD 1) s.werr rs rest
  | ignored _ _ rs rest => exact h.frame (le_refl _) (.inl rfl) s.ie true rs rest
  | idle _ _ _ rs rest _ hi _ ht he => exact he.inv (h.with_access rs rest) hi ht

/-- Settles O4: a step has one of the effects of `StepEffect`, and each of them keeps the invariant. -/
theorem stepKeepsInv : Obligations.StepKeepsInv :=
  fun _ _ h hstep => (step_effect hstep).inv h

end Sys2Proof.Machine
end

section
/-! PROOFS of the statements about accesses and reset (O1, O2, O3, O9, O14, O15, O18 to O21). -/

namespace Sys2Proof.Machine

/-! ## A write to a register's address -/

/-- A write to a register's address, in any engine state: the access is taken off the list and answered OKAY, and the
rest is the write to what the address names (R140). -/
theorem step_write_reg {s : State} {q : Reg} {d : Word} {rest : List Event}
    (h : s.inputs = .write (BitVec.ofNat 16 q.offset) d :: rest) :
    step s = writeTarget (.reg q) d { s with inputs := rest, response := some (.write .okay) } := by
  rw [step_write h, hostWrite_mapped d (addrTarget_offset _ q), State.popInput_eq h]
  rfl

/-- The write of a command's word to CMD is the command itself, also while BUSY: both ignore it then (R139, R140). -/
theorem writeTarget_cmd {w : Word} {i : Instr} (hw : decodeWord w = .ok i) (s : State) :
    writeTarget (.reg .cmd) w s = exec i s := by
  by_cases hb : s.busy = true
  · rw [writeTarget_busy (by decide) hb, exec_busy hb]
  · rw [writeTarget_idle (by simpa using hb)]
    simp only [writeIdle, hw]

/-- A read-only register takes nothing from an idle write (R39). -/
theorem writeTarget_readOnly {q : Reg} (hq : q = .cap ∨ ∃ r, r ∈ readOnlyRegs ∧ q = .data r) (d : Word) (s : State) :
    writeTarget (.reg q) d s = .next { s with werr := s.werr || s.busy } := by
  have hc : Target.reg q ≠ .reg .ctrl := by
    rcases hq with rfl | ⟨r, _, rfl⟩ <;> simp
  by_cases hb : s.busy = true
  · rw [writeTarget_busy hc hb]
    simp [State.ignoreWrite, hb]
  · have hi : s.eng = .idle := by simpa using hb
    have hs : ({ s with werr := s.werr || s.busy } : State) = s := by simp [State.busy_of_idle s hi]
    rw [writeTarget_idle hi, hs]
    rcases hq with rfl | ⟨r, hr, rfl⟩
    · rfl
    · have hw : r.hostWritable = false := (by decide : ∀ r ∈ readOnlyRegs, r.hostWritable = false) r hr
      simp [writeIdle, hw]

/-- A writable register takes its bits from an idle write (R38). -/
theorem writeTarget_writable {r : DataReg} (hr : r.hostWritable = true) {s : State} (hi : s.eng = .idle) (d : Word) :
    writeTarget (.reg (.data r)) d s = .next (s.setReg r d) := by
  rw [writeTarget_idle hi]
  simp [writeIdle, hr]

/-- A write to STATUS while BUSY sets WERR, while idle clears flags (R24, R139). -/
theorem writeTarget_status (d : Word) (s : State) :
    writeTarget (.reg .status) d s = .next (if s.busy then s.ignoreWrite else s.clearFlags d) := by
  by_cases hb : s.busy = true
  · rw [writeTarget_busy (by decide) hb, if_pos hb]
  · rw [writeTarget_idle (by simpa using hb), if_neg hb]
    rfl

/-- Every register outside the read-only list is writable (R22, R39). -/
theorem hostWritable_of_not_mem_readOnlyRegs {r : DataReg} (h : r ∉ readOnlyRegs) : r.hostWritable = true := by
  cases r
  case crcOut | seqRes | seqLoss | fldVer | fldType | fldCsum => exact absurd (by decide) h
  all_goals rfl

/-! ## Reset -/

@[simp] theorem DataRegs.zero_get (r : DataReg) : DataRegs.zero.get r = 0#32 := by
  cases r <;> rfl

/-- Every register but CAP reads 0 after reset (R44). -/
theorem State.reset_readReg {q : Reg} (hq : q ≠ .cap) : State.reset.readReg q = 0#32 := by
  cases q with
  | ctrl => decide
  | status => decide
  | cmd => rfl
  | cap => exact absurd rfl hq
  | data r => exact DataRegs.zero_get r

/-- A reset of a running block leaves the registers of the reset state, CAP apart (R156). -/
theorem State.resetBlock_readReg (s : State) {q : Reg} (hq : q ≠ .cap) : s.resetBlock.readReg q = 0#32 := by
  rw [← State.reset_readReg hq]
  cases q with
  | cap => exact absurd rfl hq
  | _ => rfl

/-- CAP is computed from the parameters alone (R27). -/
theorem State.readReg_cap_congr {s t : State} (h : t.params = s.params) : t.readReg .cap = s.readReg .cap := by
  simp only [State.readReg, State.capWord, h]

/-- After a reset every byte of BUF is the free value of the draw taken then (R44, log 4). -/
theorem State.resetBlock_bufByte (s : State) (i : Nat) : s.resetBlock.bufByte i = Config.bufDraw s.draws i := rfl

/-- Settles O1: the reset values, register by register. -/
theorem resetStateReadsZero : Obligations.ResetStateReadsZero :=
  ⟨fun _ => State.reset_readReg, by decide, rfl, rfl, fun _ => rfl⟩

/-- Settles O2: either source makes the step a `State.resetBlock`. -/
theorem resetEventSetsEveryRegister : Obligations.ResetEventSetsEveryRegister := by
  intro s rest h
  have hstep : ∃ rs, step s = .next (State.resetBlock { s with inputs := rest, response := rs }) ∧
      ∀ d, s.inputs = .write 0x0000#16 d :: rest → rs = some (.write .okay) := by
    rcases h with h | ⟨d, hd, h⟩
    · refine ⟨s.response, by rw [step_hwReset h, State.popInput_eq h], fun d hd => ?_⟩
      rw [h] at hd
      cases hd
    · refine ⟨_, ?_, fun _ _ => rfl⟩
      rw [step_write_reg (q := .ctrl) h, writeTarget_ctrl, State.writeCtrl, if_pos hd]
  obtain ⟨rs, hstep, hrs⟩ := hstep
  exact ⟨_, hstep, rfl, fun _ => State.resetBlock_readReg _, State.readReg_cap_congr rfl, rfl,
    State.resetBlock_bufByte _, Nat.lt_succ_self _, rfl, rfl, hrs⟩

/-- Settles O3: in the reset state the engine is idle, so the stored part is all there is to show. -/
theorem invHoldsAtReset : Obligations.InvHoldsAtReset :=
  State.inv_of_idle rfl (Stored.zero (by decide)) (by decide)

/-! ## Register accesses -/

/-- Settles O9, by `writeTarget_cmd`, which covers the BUSY engine too. -/
theorem stepRunsTheDecodedCommand : Obligations.StepRunsTheDecodedCommand := by
  intro s w i rest h hw
  rw [step_write_reg (q := .cmd) h, writeTarget_cmd hw]

/-- A register just written reads its implemented bits (R22, R38). -/
theorem DataRegs.get_set_toNat (g : DataRegs) (r : DataReg) (v : Word) :
    ((g.set r v).get r).toNat = v.toNat % 2 ^ r.width := by
  have hw : r.width ≤ 32 := by cases r <;> decide
  rw [DataRegs.get_set, if_pos rfl, BitVec.toNat_setWidth_of_le hw, BitVec.toNat_setWidth]

/-- Settles O14: the step is the `setReg` of a writable register. -/
theorem registerWriteStoresItsBits : Obligations.RegisterWriteStoresItsBits := by
  refine ⟨fun s r d rest hr hi h => ?_, fun s r => s.regs.get_lt r⟩
  have hw := hostWritable_of_not_mem_readOnlyRegs hr
  exact ⟨_, (step_write_reg h).trans (writeTarget_writable hw (by exact hi) d), s.regs.get_set_toNat r d,
    fun q hq => (s.regs.get_set r q d).trans (if_neg hq), rfl⟩

/-- Settles O15, by what the write does to a read-only register and to STATUS, BUSY or idle. -/
theorem readOnlyWritesAreIgnored : Obligations.ReadOnlyWritesAreIgnored := by
  refine ⟨fun s q d rest hq h => ?_, fun s d rest h => ?_⟩
  · rw [step_write_reg h, writeTarget_readOnly hq]
    rfl
  · rw [step_write_reg (q := .status) h, writeTarget_status]
    refine ⟨_, rfl, ?_⟩
    split
    · exact ⟨rfl, rfl, rfl, rfl, fun _ => rfl⟩
    · next hb => exact ⟨rfl, rfl, rfl, rfl, fun h => absurd h hb⟩

/-! ## CTRL, STATUS and CAP as read -/

/-- CTRL has IE in bit 1 and nothing else (R23). -/
theorem State.ctrlWord_getLsbD (s : State) (i : Nat) : s.ctrlWord.getLsbD i = (decide (i = 1) && s.ie) := by
  change (0#30 ++ BitVec.ofBool s.ie ++ 0#1).getLsbD i = _
  simp only [BitVec.getLsbD_append, BitVec.getLsbD_ofBool, BitVec.getLsbD_zero]
  rcases i with _ | _ | i <;> simp

/-- The four low bits of STATUS: BUSY, DONE, WERR and a 0 (R24). -/
theorem State.statusWord_getLsbD (s : State) :
    s.statusWord.getLsbD 0 = s.busy ∧ s.statusWord.getLsbD 1 = s.done ∧ s.statusWord.getLsbD 2 = s.werr ∧
      s.statusWord.getLsbD 3 = false := by
  have bit : ∀ i, s.statusWord.getLsbD i = (0#16 ++ s.lastOp ++ s.result.code ++ 0#1 ++ BitVec.ofBool s.werr ++
      BitVec.ofBool s.done ++ BitVec.ofBool s.busy).getLsbD i := fun _ => rfl
  simp only [bit, BitVec.getLsbD_append, BitVec.getLsbD_ofBool, BitVec.getLsbD_zero]
  exact ⟨rfl, rfl, rfl, rfl⟩

/-- STATUS above its four low bits: RESULT, LAST_OP and sixteen 0 (R24). -/
theorem State.statusWord_extractLsb' (s : State) {k : Nat} (hk : 4 ≤ k) (n : Nat) :
    s.statusWord.extractLsb' k n = (0#16 ++ s.lastOp ++ s.result.code).extractLsb' (k - 4) n :=
  calc
    _ = (0#16 ++ s.lastOp ++ s.result.code ++ 0#1 ++ BitVec.ofBool s.werr ++ BitVec.ofBool s.done).extractLsb'
          (k - 1) n := BitVec.extractLsb'_append_eq_of_le (by omega)
    _ = (0#16 ++ s.lastOp ++ s.result.code ++ 0#1 ++ BitVec.ofBool s.werr).extractLsb' (k - 1 - 1) n :=
          BitVec.extractLsb'_append_eq_of_le (by omega)
    _ = (0#16 ++ s.lastOp ++ s.result.code ++ 0#1).extractLsb' (k - 1 - 1 - 1) n :=
          BitVec.extractLsb'_append_eq_of_le (by omega)
    _ = _ := BitVec.extractLsb'_append_eq_of_le (by omega)

theorem State.statusWord_result (s : State) : s.statusWord.extractLsb' 4 4 = s.result.code := by
  rw [s.statusWord_extractLsb' (by decide), BitVec.extractLsb'_append_eq_of_add_le (by decide)]
  exact BitVec.extractLsb'_eq_self

theorem State.statusWord_lastOp (s : State) : s.statusWord.extractLsb' 8 8 = s.lastOp := by
  rw [s.statusWord_extractLsb' (by decide), BitVec.extractLsb'_append_eq_of_le (by decide),
    BitVec.extractLsb'_append_eq_of_add_le (by decide)]
  exact BitVec.extractLsb'_eq_self

theorem State.statusWord_high (s : State) : s.statusWord.extractLsb' 16 16 = 0#16 := by
  rw [s.statusWord_extractLsb' (by decide), BitVec.extractLsb'_append_eq_of_le (by decide),
    BitVec.extractLsb'_append_eq_of_le (by decide)]
  exact BitVec.extractLsb'_eq_self

theorem ResultCode.code_injective : Function.Injective ResultCode.code := by
  intro a b
  cases a <;> cases b <;> decide

/-- CAP, field by field (R27). -/
theorem State.capWord_fields (s : State) :
    s.capWord.extractLsb' 24 8 = Config.mapRev ∧ s.capWord.extractLsb' 16 8 = Config.protocolVersion ∧
      s.capWord.extractLsb' 0 16 = BitVec.ofNat 16 s.params.bufBytes := by
  refine ⟨?_, ?_, ?_⟩
  · refine (BitVec.extractLsb'_append_eq_of_le (by decide)).trans ?_
    refine (BitVec.extractLsb'_append_eq_of_le (by decide)).trans ?_
    exact BitVec.extractLsb'_eq_self
  · refine (BitVec.extractLsb'_append_eq_of_le (by decide)).trans ?_
    refine (BitVec.extractLsb'_append_eq_of_add_le (by decide)).trans ?_
    exact BitVec.extractLsb'_eq_self
  · refine (BitVec.extractLsb'_append_eq_of_add_le (by decide)).trans ?_
    exact BitVec.extractLsb'_eq_self

@[simp] theorem State.complete_params (s : State) : s.complete.params = s.params := by
  cases h : s.eng <;> simp [State.complete, h]

/-- No step changes the parameters (log 1). -/
theorem StepEffect.params {s t : State} (h : StepEffect s t) : t.params = s.params := by
  cases h with
  | complete i p n rest => exact State.complete_params _
  | idle a d tg rs rest _ hi hin ht he =>
    cases he with
    | _ => rfl
  | _ => rfl

/-- Settles O18: the step is `State.writeCtrl`. -/
theorem ctrlWriteSetsIeOrResets : Obligations.CtrlWriteSetsIeOrResets := by
  refine ⟨fun s d rest h => ?_, fun s => s.ctrlWord_getLsbD, fun s => ?_⟩
  · rw [step_write_reg (q := .ctrl) h, writeTarget_ctrl, State.writeCtrl]
    refine ⟨fun hd => ?_, fun hd => ⟨_, ?_, rfl, rfl⟩⟩
    · rw [if_neg (Bool.eq_false_iff.1 hd)]
    · rw [if_pos hd]
  · obtain ⟨-, hdone, -, -⟩ := s.statusWord_getLsbD
    simp only [State.readReg, State.irq, State.ctrlWord_getLsbD, hdone, decide_true, Bool.true_and]

/-- Settles O19: STATUS field by field, and the step while idle is `State.clearFlags`. -/
theorem statusWordAndWriteOneToClear : Obligations.StatusWordAndWriteOneToClear := by
  refine ⟨fun s => ?_, fun s d rest hi h => ?_⟩
  · obtain ⟨hbusy, hdone, hwerr, h3⟩ := s.statusWord_getLsbD
    refine ⟨?_, hdone, hwerr, h3, s.statusWord_result, s.statusWord_lastOp, s.statusWord_high⟩
    rw [State.readReg, hbusy, ne_eq, ← s.busy_eq_false_iff, Bool.not_eq_false]
  · exact (step_write_reg (q := .status) h).trans (writeTarget_idle (by exact hi))

/-- Settles O20: `ResultCode.code` is injective and has six values. -/
theorem resultTakesOnlyItsSixValues : Obligations.ResultTakesOnlyItsSixValues := by
  intro s
  have iff : ∀ c : ResultCode, (s.readReg .status).extractLsb' 4 4 = c.code ↔ s.result = c := fun c => by
    rw [State.readReg, s.statusWord_result]
    exact ResultCode.code_injective.eq_iff
  refine ⟨?_, iff .ok, iff .tooShort, iff .badChecksum, iff .unsupportedVersion, iff .illegalCmd, iff .lenRange⟩
  rw [State.readReg, s.statusWord_result]
  cases s.result <;> decide

/-- Settles O21: CAP is a function of the parameters, and no effect of a step changes those. -/
theorem capIsConstant : Obligations.CapIsConstant := by
  refine ⟨fun s => ?_, fun s t h => ?_⟩
  · obtain ⟨hrev, hver, hbuf⟩ := s.capWord_fields
    refine ⟨hrev, hver, ?_, fun h64 => ?_⟩
    · rw [State.readReg, hbuf, BitVec.toNat_ofNat]
    · rw [State.readReg, State.capWord, h64]
      rfl
  · have hp := (step_effect h).params
    exact ⟨hp, State.readReg_cap_congr hp⟩

end Sys2Proof.Machine
end

section
/-! PROOFS of the statements about who writes what: O31 and O32 (registers and BUF), O44 (bytes past LEN). -/

namespace Sys2Proof.Machine

/-! ## The writes of a command's rule -/

theorem mem_bufWrites {f : List Byte} {a : Nat} {w : EngWrite} (h : w ∈ bufWrites a f) :
    ∃ j b, w = .buf j b ∧ j < a + f.length := by
  induction f generalizing a with
  | nil => cases h
  | cons b f ih =>
    rw [List.length_cons]
    rcases List.mem_cons.1 h with rfl | h
    · exact ⟨a, b, rfl, by omega⟩
    · obtain ⟨j, c, rfl, hj⟩ := ih h
      exact ⟨j, c, rfl, by omega⟩

theorem mem_encoderResult {f : List Byte} {c : Half} {w : EngWrite} (h : w ∈ (encoderResult f c).writes) :
    (∃ j b, w = .buf j b ∧ j < f.length) ∨ (∃ v, w = .reg .len v) ∨ (∃ v, w = .reg .crcOut v) := by
  rcases List.mem_append.1 h with h | h
  · left
    simpa using mem_bufWrites h
  · right
    rcases List.mem_pair.1 h with rfl | rfl
    · exact .inl ⟨_, rfl⟩
    · exact .inr ⟨_, rfl⟩

/-- Every write of DECODE: CRC_OUT, or, when the result is OK, a header field, or, when the frame is DATA also, a
payload field (R110, R113). -/
theorem mem_decodeResult {s : State} {w : EngWrite} (h : w ∈ (decodeResult s).writes) :
    (∃ v, w = .reg .crcOut v) ∨ (decodeCode s = .ok ∧ w ∈ headerWrites s) ∨
      (decodeCode s = .ok ∧ s.bufByte 1 = s.params.mtData ∧ w ∈ payloadWrites s) := by
  rcases List.mem_append.1 h with h | h
  · left
    unfold decodeCrcWrite at h
    dsimp only at h
    split at h
    · cases h
    · exact ⟨_, List.mem_singleton.1 h⟩
  · right
    unfold decodeFieldWrites at h
    split at h
    · next hok =>
      rcases List.mem_append.1 h with h | h
      · exact .inl ⟨hok, h⟩
      · split at h
        · next hd => exact .inr ⟨hok, by simpa [State.frameIsData] using hd, h⟩
        · cases h
    · cases h

/-- A write to a BUF byte comes from an encoder whose frame holds the byte (R109). -/
theorem encoder_of_mem_buf {i : Instr} {s : State} {j : Nat} {b : Byte}
    (h : EngWrite.buf j b ∈ (commandResult i s).writes) : ∃ e, e ∈ encoders ∧ j < e.2 ∧ e.1 = i := by
  have frm : ∀ {f c}, EngWrite.buf j b ∈ (encoderResult f c).writes → j < f.length := by
    intro f c h
    rcases mem_encoderResult h with ⟨k, c, e, hk⟩ | ⟨_, e⟩ | ⟨_, e⟩
    · cases e; exact hk
    · cases e
    · cases e
  cases i with
  | crc z => simp [commandResult, crcResult] at h
  | encData => exact ⟨(.encData, 30), by decide, by simpa using frm h, rfl⟩
  | encAck => exact ⟨(.encAck, 10), by decide, by simpa using frm h, rfl⟩
  | encHb => exact ⟨(.encHb, 10), by decide, by simpa using frm h, rfl⟩
  | decode =>
    rcases mem_decodeResult h with ⟨_, e⟩ | ⟨_, h⟩ | ⟨_, _, h⟩
    · cases e
    · simp [headerWrites] at h
    · simp [payloadWrites] at h
  | classify => simp [commandResult, classifyResult] at h

/-! ## Registers (R28 to R37) -/

/-- The next step is an idle host write to the writable register `r`. -/
def State.hostWrites (s : State) (r : DataReg) : Prop :=
  r.hostWritable = true ∧ s.eng = .idle ∧
    ∃ d rest, s.inputs = .write (BitVec.ofNat 16 (Reg.offset (.data r))) d :: rest

/-- The next step is a completion that may write the register `r`; `code` is the result it reports (R85, R113). -/
def State.engineWrites (s : State) (code : ResultCode) : DataReg → Prop
  | .len => s.completesNext .encData ∨ s.completesNext .encAck ∨ s.completesNext .encHb
  | .crcOut => ∃ i, i ≠ .classify ∧ s.completesNext i
  | .seqLast | .seqIn => False
  | .seqRes | .seqLoss => s.completesNext .classify
  | .fldVer | .fldType | .fldDevid | .fldSeq | .fldCsum | .fldFlags => s.completesNext .decode ∧ code = .ok
  | .fldLat | .fldLon | .fldAlt | .fldTs | .fldSpeed | .fldHeading | .fldBatt | .fldStatus =>
    s.completesNext .decode ∧ code = .ok ∧ s.bufByte 1 = s.params.mtData

/-- A command whose rule writes `r` is one of the writers of `r`. -/
theorem engineWrites_of_mem {i : Instr} {s : State} {r : DataReg} {v : Word} (hc : s.completesNext i)
    (h : EngWrite.reg r v ∈ (commandResult i s).writes) : s.engineWrites (commandResult i s).code r := by
  have enc : ∀ {f c}, EngWrite.reg r v ∈ (encoderResult f c).writes → r = .len ∨ r = .crcOut := by
    intro f c h
    rcases mem_encoderResult h with ⟨_, _, e, _⟩ | ⟨_, e⟩ | ⟨_, e⟩
    · cases e
    · cases e; exact .inl rfl
    · cases e; exact .inr rfl
  cases i with
  | crc z =>
    cases List.mem_singleton.1 h
    exact ⟨_, by simp, hc⟩
  | encData =>
    rcases enc h with rfl | rfl
    · exact .inl hc
    · exact ⟨_, by simp, hc⟩
  | encAck =>
    rcases enc h with rfl | rfl
    · exact .inr (.inl hc)
    · exact ⟨_, by simp, hc⟩
  | encHb =>
    rcases enc h with rfl | rfl
    · exact .inr (.inr hc)
    · exact ⟨_, by simp, hc⟩
  | decode =>
    rcases mem_decodeResult h with ⟨_, e⟩ | ⟨hok, h⟩ | ⟨hok, hd, h⟩
    · cases e
      exact ⟨_, by simp, hc⟩
    · simp only [headerWrites, List.mem_cons, EngWrite.reg.injEq, List.not_mem_nil, or_false] at h
      rcases h with ⟨rfl, -⟩ | ⟨rfl, -⟩ | ⟨rfl, -⟩ | ⟨rfl, -⟩ | ⟨rfl, -⟩ | ⟨rfl, -⟩ <;> exact ⟨hc, hok⟩
    · simp only [payloadWrites, List.mem_cons, EngWrite.reg.injEq, List.not_mem_nil, or_false] at h
      rcases h with ⟨rfl, -⟩ | ⟨rfl, -⟩ | ⟨rfl, -⟩ | ⟨rfl, -⟩ | ⟨rfl, -⟩ | ⟨rfl, -⟩ | ⟨rfl, -⟩ | ⟨rfl, -⟩ <;>
        exact ⟨hc, hok, hd⟩
  | classify =>
    rcases List.mem_pair.1 h with e | e <;> cases e <;> exact hc

/-- What an address that names a register is (R52). -/
theorem eq_offset_of_addrTarget {p : Params} {a : Half} {q : Reg} (h : addrTarget p a = some (.reg q)) :
    a = BitVec.ofNat 16 q.offset := by
  rcases addrTarget_cases h with ⟨r, e, ha⟩ | ⟨k, e, _⟩
  · cases e; exact ha
  · cases e

/-- A write to an address that names a register, the address written out. -/
theorem State.inputs_of_addrTarget {s : State} {p : Params} {a : Half} {d : Word} {rest : List Event} {tg : Target}
    (hin : s.inputs = .write a d :: rest) (ht : addrTarget p a = some tg) {q : Reg} (h : tg = .reg q) :
    s.inputs = .write (BitVec.ofNat 16 q.offset) d :: rest := by
  subst h
  rw [hin, eq_offset_of_addrTarget ht]

/-- A completion, its registers, BUF and result being those of the pending result applied (R137). -/
theorem State.complete_of_pending {s : State} {p : Pending} {n : Nat} (he : s.eng = .busy p n) (rest : List Event) :
    (State.complete { s with inputs := rest }).regs = (s.applyWrites p.res.writes).regs ∧
      (∀ i, (State.complete { s with inputs := rest }).bufByte i = (s.applyWrites p.res.writes).bufByte i) ∧
      (State.complete { s with inputs := rest }).result = p.res.code := by
  rw [State.complete_of_inputs he, State.complete_of_eng s he]
  exact ⟨rfl, fun _ => rfl, rfl⟩

/-- In a step that is no reset a register changes only by a host write to it or by a command that writes it. -/
theorem writer_of_get_ne {s t : State} (hs : s.Inv) (h : step s = .next t) (hr : s.resetsNext = false) {r : DataReg}
    (hne : t.regs.get r ≠ s.regs.get r) : s.hostWrites r ∨ s.engineWrites t.result r := by
  cases step_effect h with
  | complete i p n rest hc he hp =>
    subst hp
    obtain ⟨hregs, -, hres⟩ := State.complete_of_pending he rest
    rw [hregs] at hne
    rw [hres]
    rw [(hs.flight he).snapshot] at hne ⊢
    right
    by_contra hw
    exact hne (State.applyWrites_get_of_not_mem _ s r fun v hv => hw (engineWrites_of_mem hc hv))
  | reset _ _ hreset => cases hr.symm.trans hreset
  | idle a d tg rs rest _ hi hin ht he =>
    cases he with
    | register q hq hw =>
      by_cases hrq : r = q
      · subst hrq
        exact .inl ⟨hw, hi, d, rest, State.inputs_of_addrTarget hin ht hq⟩
      · exact absurd ((s.regs.get_set q r d).trans (if_neg hrq)) hne
    | _ => exact absurd rfl hne
  | _ => exact absurd rfl hne

theorem setWidth_32_ne {n : Nat} {a b : BitVec n} (h : a ≠ b) (hn : n ≤ 32 := by decide) :
    a.setWidth 32 ≠ b.setWidth 32 := by
  refine mt (fun e => BitVec.eq_of_toNat_eq ?_) h
  rw [← BitVec.toNat_setWidth_of_le hn, e, BitVec.toNat_setWidth_of_le hn]

/-- Settles O31: `writer_of_get_ne` for each register. -/
theorem registersChangeOnlyByTheirWriters : Obligations.RegistersChangeOnlyByTheirWriters := by
  intro s t hs h hr
  have writer : ∀ r, t.regs.get r ≠ s.regs.get r → s.hostWrites r ∨ s.engineWrites t.result r :=
    fun r => writer_of_get_ne hs h hr
  have engine : ∀ r, r.hostWritable = false → t.regs.get r ≠ s.regs.get r → s.engineWrites t.result r :=
    fun r hw hne => (writer r hne).resolve_left fun hh => by rw [State.hostWrites, hw] at hh; cases hh.1
  refine ⟨fun hne => ?_, fun hne => ?_, fun hne => ?_, fun hne => ?_, fun hne => ?_, fun hne => ?_,
    fun f hf hne => ?_, fun f hf hne => ?_⟩
  · rcases hne with hne | hne
    · exact engine .seqRes rfl (setWidth_32_ne hne)
    · exact engine .seqLoss rfl (setWidth_32_ne hne)
  · rcases hne with hne | hne | hne
    · exact engine .fldVer rfl (setWidth_32_ne hne)
    · exact engine .fldType rfl (setWidth_32_ne hne)
    · exact engine .fldCsum rfl (setWidth_32_ne hne)
  · exact (writer .seqLast (setWidth_32_ne hne)).elim And.right False.elim
  · exact (writer .seqIn (setWidth_32_ne hne)).elim And.right False.elim
  · exact engine .crcOut rfl (setWidth_32_ne hne)
  · exact (writer .len (setWidth_32_ne hne)).imp_left And.right
  · have hw := (writer f.1 hne).imp_left And.right
    simp only [List.mem_cons, List.not_mem_nil, or_false] at hf
    rcases hf with rfl | rfl | rfl <;> exact hw
  · have hw := (writer f.1 hne).imp_left And.right
    simp only [List.mem_cons, List.not_mem_nil, or_false] at hf
    rcases hf with rfl | rfl | rfl | rfl | rfl | rfl | rfl | rfl <;> exact hw

/-! ## BUF (R40) -/

/-- A window write changes no byte outside its word (R54). -/
theorem State.writeWindow_bufByte_of_ne (s : State) {k i : Nat} (h : i / 4 ≠ k) (d : Word) :
    (s.writeWindow k d).bufByte i = s.bufByte i := by
  refine (State.bufByte_setBytes (s.writeWindow_buf k d) rfl i).trans (if_neg ?_)
  simp only [List.length_cons, List.length_nil]
  omega

/-- Settles O32: a completion changes only bytes its writes name, and only an encoder names any; a window write changes
only its word. -/
theorem bufChangesOnlyByWindowOrEncoder : Obligations.BufChangesOnlyByWindowOrEncoder := by
  intro s t i hs h hr hne
  cases step_effect h with
  | complete j p n rest hc he hp =>
    subst hp
    obtain ⟨-, hbuf, -⟩ := State.complete_of_pending he rest
    rw [hbuf, (hs.flight he).snapshot] at hne
    right
    by_contra hw
    refine hne (State.applyWrites_bufByte_of_not_mem _ s i fun b hb => hw ?_)
    obtain ⟨e, hmem, hi, he⟩ := encoder_of_mem_buf hb
    exact ⟨e, hmem, hi, he ▸ hc⟩
  | reset _ _ hreset => cases hr.symm.trans hreset
  | idle a d tg rs rest _ hi hin ht he =>
    cases he with
    | window k hk =>
      subst hk
      have hk : i / 4 = k := by
        by_contra hik
        exact hne (State.writeWindow_bufByte_of_ne _ hik d)
      exact .inl ⟨hi, a, d, rest, hin, hk ▸ ht⟩
    | _ => exact absurd rfl hne
  | _ => exact absurd rfl hne

/-! ## Bytes past LEN (R40) -/

/-- A DECODE that reports OK has checked that the header lies below LEN, and of a DATA frame the payload too (R111). -/
theorem len_of_decodeCode_ok {s : State} (h : decodeCode s = .ok) :
    10 ≤ s.regs.len.toNat ∧ (s.frameIsData = true → 30 ≤ s.regs.len.toNat) := by
  have hl : ¬ s.regs.len.toNat < 10 := fun hl => by simp [decodeCode, Config.headerLen, hl] at h
  refine ⟨not_lt.1 hl, fun hd => ?_⟩
  by_contra h30
  simp only [decodeCode, Config.headerLen, Config.dataLen, hl, hd, not_le.1 h30, decide_true, Bool.and_self, if_true,
    if_false] at h
  split_ifs at h

section
variable {s t : State} (hp : t.params = s.params) (hg : t.regs = s.regs)
  (hb : ∀ i, i < s.regs.len.toNat → t.bufByte i = s.bufByte i)
include hb

theorem State.memRead_congr_of_le_len {a n : Nat} (h : a + n ≤ s.regs.len.toNat) : t.memRead a n = s.memRead a n := by
  have hseq : t.bufSeq a (a + n) = s.bufSeq a (a + n) := by
    apply List.ext_getElem?
    intro i
    simp only [State.getElem?_bufSeq]
    split
    · rw [hb _ (by omega)]
    · rfl
  rw [State.memRead, hseq, State.memRead]

theorem headerWrites_congr (h : 10 ≤ s.regs.len.toNat) : headerWrites t = headerWrites s := by
  have hw : ∀ a n, a + n ≤ 10 → t.memWord a n = s.memWord a n := fun a n han => by
    rw [State.memWord, State.memRead_congr_of_le_len hb (by omega), State.memWord]
  simp only [headerWrites, hb 0 (by omega), hb 1 (by omega), hw, Nat.reduceAdd, Nat.reduceLeDiff]

theorem payloadWrites_congr (h : 30 ≤ s.regs.len.toNat) : payloadWrites t = payloadWrites s := by
  have hw : ∀ a n, a + n ≤ 30 → t.memWord a n = s.memWord a n := fun a n han => by
    rw [State.memWord, State.memRead_congr_of_le_len hb (by omega), State.memWord]
  simp only [payloadWrites, hb 28 (by omega), hb 29 (by omega), hw, Nat.reduceAdd, Nat.reduceLeDiff]

include hp

theorem frameIsData_congr (h : 10 ≤ s.regs.len.toNat) : t.frameIsData = s.frameIsData := by
  rw [State.frameIsData, hp, hb 1 (by omega), State.frameIsData]

include hg

theorem decodeCode_congr : decodeCode t = decodeCode s := by
  simp only [decodeCode, hg]
  by_cases hl : s.regs.len.toNat < Config.headerLen
  · simp only [hl, if_true]
  · have h10 : 10 ≤ s.regs.len.toNat := not_lt.1 hl
    have h6 : t.memRead Config.cksumOff 2 = s.memRead Config.cksumOff 2 :=
      State.memRead_congr_of_le_len hb (le_trans (by decide) h10)
    rw [State.bufSeq_congr hb, h6, hb 0 (by omega), frameIsData_congr hp hb h10]

/-- DECODE reads a byte only after the check that it lies below LEN. -/
theorem decodeResult_congr : decodeResult t = decodeResult s := by
  have hcrc : decodeCrcWrite t = decodeCrcWrite s := by
    simp only [decodeCrcWrite, hg, State.bufSeq_congr hb]
  have hfld : decodeFieldWrites t = decodeFieldWrites s := by
    unfold decodeFieldWrites
    rw [decodeCode_congr hp hg hb]
    by_cases hok : decodeCode s = .ok
    · obtain ⟨h10, h30⟩ := len_of_decodeCode_ok hok
      rw [if_pos hok, if_pos hok, headerWrites_congr hb h10, frameIsData_congr hp hb h10]
      by_cases hd : s.frameIsData = true
      · rw [if_pos hd, if_pos hd, payloadWrites_congr hb (h30 hd)]
      · rw [if_neg hd, if_neg hd]
    · rw [if_neg hok, if_neg hok]
  rw [decodeResult, hcrc, hfld, decodeCode_congr hp hg hb, decodeResult]

end

/-- Settles O44: CRC reads BUF below LEN only, and DECODE by `decodeResult_congr`. -/
theorem bytesPastLenDoNotMatter : Obligations.BytesPastLenDoNotMatter := by
  intro s t hp hg hb
  refine ⟨fun z => ?_, decodeResult_congr hp hg hb⟩
  simp only [commandResult, crcResult, hg, State.bufSeq_congr hb]

end Sys2Proof.Machine
end

section
/-! PROOF of `Obligations.StatusCmdAndCtrlChangeOnlyByTheirCauses` (O53): a lemma for each clause, by the effects of a
step. -/

namespace Sys2Proof.Machine

/-! ## The command word a decoded command stands for -/

theorem instrOfOp_eq_ok {op : Byte} {z : Bool} {i : Instr} (h : instrOfOp op z = .ok i) : op = i.op ∧ z = i.z := by
  unfold instrOfOp at h
  split at h
  case h_1 hop =>
    cases h
    exact ⟨BitVec.eq_of_toNat_eq hop, rfl⟩
  case h_7 => cases h
  all_goals
    next hop =>
      cases z
      · cases h
        exact ⟨BitVec.eq_of_toNat_eq hop, rfl⟩
      · cases h

/-- The decoder reads a command only from that command's word (R84, R85). -/
theorem eq_encode_of_decodeWord {w : Word} {i : Instr} (h : decodeWord w = .ok i) : w = encode i := by
  unfold decodeWord at h
  split at h
  · cases h
  · next hres =>
    obtain ⟨hop, hz⟩ := instrOfOp_eq_ok h
    rw [← word_of_fields w, not_not.1 hres, hop, hz, encode]

/-! ## What a completion leaves -/

@[simp] theorem State.complete_ie (s : State) : s.complete.ie = s.ie := by
  cases h : s.eng <;> simp [State.complete, h]

@[simp] theorem State.complete_werr (s : State) : s.complete.werr = s.werr := by
  cases h : s.eng <;> simp [State.complete, h]

@[simp] theorem State.complete_cmd (s : State) : s.complete.cmd = s.cmd := by
  cases h : s.eng <;> simp [State.complete, h]

theorem State.complete_lastOp {s : State} {p : Pending} {n : Nat} (h : s.eng = .busy p n) :
    s.complete.lastOp = p.instr.op := by
  rw [State.complete_of_eng s h]
  exact opField_encode p.instr

theorem State.complete_done {s : State} {p : Pending} {n : Nat} (h : s.eng = .busy p n) : s.complete.done = true := by
  rw [State.complete_of_eng s h]

/-- An engine that goes on with its command, or did nothing, is BUSY as before. -/
theorem busy_quiet {s : State} {e : Eng} (he : e = s.eng ∨ ∃ p k, s.eng = .busy p (k + 2) ∧ e = .busy p (k + 1))
    (rs : Option BusResponse) (ins : List Event) (n : Nat) :
    State.busy { s with eng := e, response := rs, inputs := ins, draws := n } = s.busy := by
  rcases he with rfl | ⟨p, k, hs, rfl⟩
  · rfl
  · rw [State.busy_of_eng s hs]
    rfl

/-! ## The clauses -/

section
variable {s t : State} (h : StepEffect s t) (hr : s.resetsNext = false)
include h hr

theorem StepEffect.of_result_ne_or_lastOp_ne (hne : t.result ≠ s.result ∨ t.lastOp ≠ s.lastOp) :
    (∃ i, s.completesNext i ∧ t.lastOp = i.op) ∨
    (s.eng = .idle ∧ t.eng = .idle ∧ (t.result = .illegalCmd ∨ t.result = .lenRange) ∧
      ∃ w rest, s.inputs = .write 0x0008#16 w :: rest ∧ t.lastOp = opField w) := by
  have same : ¬ (s.result ≠ s.result ∨ s.lastOp ≠ s.lastOp) := by simp
  cases h with
  | complete i p n rest hc he hp => exact .inl ⟨i, hc, hp ▸ State.complete_lastOp (by exact he)⟩
  | reset _ _ hreset => cases hr.symm.trans hreset
  | idle a d tg rs rest _ hi hin ht he =>
    cases he with
    | illegal hcmd e _ =>
      exact .inr ⟨hi, hi, .inl rfl, d, rest, State.inputs_of_addrTarget hin ht hcmd, rfl⟩
    | lenRange hcmd i hd _ _ =>
      exact .inr ⟨hi, hi, .inr rfl, d, rest, State.inputs_of_addrTarget hin ht hcmd,
        congrArg opField (eq_encode_of_decodeWord hd).symm⟩
    | _ => exact absurd hne same
  | _ => exact absurd hne same

theorem StepEffect.of_cmd_ne (hne : t.cmd ≠ s.cmd) :
    s.eng = .idle ∧ ∃ w rest, s.inputs = .write 0x0008#16 w :: rest ∧ t.cmd = w ∧
      (t.busy = true ∨ t.result = .illegalCmd ∨ t.result = .lenRange) := by
  cases h with
  | complete => exact absurd (State.complete_cmd _) hne
  | reset _ _ hreset => cases hr.symm.trans hreset
  | idle a d tg rs rest _ hi hin ht he =>
    cases he with
    | illegal hcmd e _ =>
      exact ⟨hi, d, rest, State.inputs_of_addrTarget hin ht hcmd, rfl, .inr (.inl rfl)⟩
    | lenRange hcmd i hd _ _ =>
      exact ⟨hi, d, rest, State.inputs_of_addrTarget hin ht hcmd, (eq_encode_of_decodeWord hd).symm, .inr (.inr rfl)⟩
    | accept hcmd i hd _ =>
      exact ⟨hi, d, rest, State.inputs_of_addrTarget hin ht hcmd, (eq_encode_of_decodeWord hd).symm, .inl rfl⟩
    | _ => exact absurd rfl hne
  | _ => exact absurd rfl hne

theorem StepEffect.of_busy_ne (hne : t.busy ≠ s.busy) :
    (s.eng = .idle ∧ ∃ w rest, s.inputs = .write 0x0008#16 w :: rest ∧ t.cmd = w) ∨ ∃ i, s.completesNext i := by
  cases h with
  | complete i _ _ _ hc => exact .inr ⟨i, hc⟩
  | quiet e rs ins n _ he => exact absurd (busy_quiet he rs ins n) hne
  | reset _ _ hreset => cases hr.symm.trans hreset
  | idle a d tg rs rest _ hi hin ht he =>
    cases he with
    | accept hcmd i hd _ =>
      exact .inl ⟨hi, d, rest, State.inputs_of_addrTarget hin ht hcmd, (eq_encode_of_decodeWord hd).symm⟩
    | _ => exact absurd rfl hne
  | _ => exact absurd rfl hne

theorem StepEffect.of_werr_set (h0 : s.werr = false) (h1 : t.werr = true) :
    s.busy = true ∧ ∃ a d rest, s.inputs = .write a d :: rest ∧ a ≠ 0x0000#16 ∧ addrTarget s.params a ≠ none := by
  have hne : t.werr ≠ s.werr := by simp [h0, h1]
  cases h with
  | complete => exact absurd (State.complete_werr _) hne
  | ignored a d _ rest hb hin hm hc => exact ⟨hb, a, d, rest, hin, hc, hm⟩
  | reset _ _ hreset => cases hr.symm.trans hreset
  | idle a d tg rs rest _ hi hin ht he =>
    cases he with
    | clear => simp [h0] at h1
    | _ => exact absurd rfl hne
  | _ => exact absurd rfl hne

theorem StepEffect.of_werr_clear (h1 : s.werr = true) (h0 : t.werr = false) :
    s.eng = .idle ∧ ∃ d rest, s.inputs = .write 0x0004#16 d :: rest ∧ d.getLsbD 2 = true := by
  have hne : t.werr ≠ s.werr := by simp [h0, h1]
  cases h with
  | complete => exact absurd (State.complete_werr _) hne
  | ignored => cases h0
  | reset _ _ hreset => cases hr.symm.trans hreset
  | idle a d tg rs rest _ hi hin ht he =>
    cases he with
    | clear hst =>
      exact ⟨hi, d, rest, State.inputs_of_addrTarget hin ht hst, by simpa [h1] using h0⟩
    | _ => exact absurd rfl hne
  | _ => exact absurd rfl hne

theorem StepEffect.of_done_clear (h1 : s.done = true) (h0 : t.done = false) :
    s.eng = .idle ∧
      ((∃ d rest, s.inputs = .write 0x0004#16 d :: rest ∧ d.getLsbD 1 = true) ∨
       (∃ w rest, s.inputs = .write 0x0008#16 w :: rest ∧ t.cmd = w ∧ t.busy = true)) := by
  have hne : t.done ≠ s.done := by simp [h0, h1]
  cases h with
  | complete _ _ _ _ _ he => cases h0.symm.trans (State.complete_done (by exact he))
  | reset _ _ hreset => cases hr.symm.trans hreset
  | idle a d tg rs rest _ hi hin ht he =>
    cases he with
    | clear hst =>
      exact ⟨hi, .inl ⟨d, rest, State.inputs_of_addrTarget hin ht hst, by simpa [h1] using h0⟩⟩
    | illegal => cases h0
    | lenRange => cases h0
    | accept hcmd i hd _ =>
      exact ⟨hi, .inr ⟨d, rest, State.inputs_of_addrTarget hin ht hcmd, (eq_encode_of_decodeWord hd).symm, rfl⟩⟩
    | _ => exact absurd rfl hne
  | _ => exact absurd rfl hne

theorem StepEffect.of_ie_ne (hne : t.ie ≠ s.ie) :
    ∃ d rest, s.inputs = .write 0x0000#16 d :: rest ∧ t.ie = d.getLsbD 1 := by
  cases h with
  | complete => exact absurd (State.complete_ie _) hne
  | ctrl d _ rest hin _ => exact ⟨d, rest, hin, rfl⟩
  | reset _ _ hreset => cases hr.symm.trans hreset
  | idle a d tg rs rest _ hi hin ht he => cases he <;> exact absurd rfl hne
  | _ => exact absurd rfl hne

end

/-- Settles O53, clause by clause. -/
theorem statusCmdAndCtrlChangeOnlyByTheirCauses : Obligations.StatusCmdAndCtrlChangeOnlyByTheirCauses := by
  intro s t hstep hr
  have h := step_effect hstep
  exact ⟨h.of_result_ne_or_lastOp_ne hr, h.of_cmd_ne hr, h.of_busy_ne hr, h.of_werr_set hr, h.of_werr_clear hr,
    h.of_done_clear hr, h.of_ie_ne hr⟩

end Sys2Proof.Machine
end

section
/-! PROOFS of the statements about the address map and host accesses (O10, O11, O12, O16). -/

namespace Sys2Proof.Machine

/-! ## The address map (R52) -/

/-- BUF is whole words and fits the window's half of the address space (R10). -/
theorem Params.bufBytes_words {p : Params} (h : p.wf = true) : p.bufBytes % 4 = 0 ∧ p.bufBytes ≤ 32768 := by
  simp only [Params.wf, Params.bufBytesOk, Bool.and_eq_true, decide_eq_true_eq, beq_iff_eq] at h
  exact ⟨h.1.1, h.1.2.2⟩

/-- The registers fill two blocks of words (R22). -/
theorem Reg.offset_range (r : Reg) : r.offset ≤ 0x0024 ∨ (0x0040 ≤ r.offset ∧ r.offset ≤ 0x0074) := by
  rcases r with _ | _ | _ | _ | r
  case data => cases r <;> decide
  all_goals decide

/-- Every word of those two blocks is a register (R22). -/
theorem Reg.exists_offset_eq {n : Nat} (h4 : n % 4 = 0) (h : n ≤ 0x0024 ∨ (0x0040 ≤ n ∧ n ≤ 0x0074)) :
    ∃ r : Reg, r.offset = n := by
  have table : ∀ m < 0x78, m % 4 = 0 → m ≤ 0x0024 ∨ (0x0040 ≤ m ∧ m ≤ 0x0074) → (Reg.ofOffset m).isSome := by decide
  obtain ⟨r, hr⟩ := Option.isSome_iff_exists.1 (table n (by omega) h4 h)
  exact ⟨r, (Reg.offset_of_ofOffset hr).symm⟩

theorem addrTarget_misaligned (p : Params) {a : Half} (h : a.toNat % 4 ≠ 0) : addrTarget p a = none := by
  rw [addrTarget, if_pos h]

/-- `addrTarget_window` for parameters that meet R10, whose BUF has room for the whole word. -/
theorem addrTarget_window_of_wf {p : Params} (hp : p.wf = true) {k : Nat} (hk : 4 * k < p.bufBytes) :
    addrTarget p (BitVec.ofNat 16 (0x8000 + 4 * k)) = some (.window k) := by
  obtain ⟨hwords, hfits⟩ := Params.bufBytes_words hp
  exact addrTarget_window p hfits (by omega)

/-- Settles O10: `addrTarget_cases` one way; the other way, a word of the two register blocks is a register and a word
of the window is a window word. -/
theorem addressMapIsTheTable : Obligations.AddressMapIsTheTable := by
  intro p a hp
  obtain ⟨hwords, -⟩ := Params.bufBytes_words hp
  constructor
  · intro h
    obtain ⟨t, ht⟩ := Option.ne_none_iff_exists'.1 h
    rcases addrTarget_cases ht with ⟨r, -, rfl⟩ | ⟨k, -, ha, hk⟩
    · obtain ⟨hlt, h4⟩ := r.offset_lt
      have hr := r.offset_range
      rw [BitVec.toNat_ofNat, Nat.mod_eq_of_lt (lt_trans hlt (by decide))]
      exact ⟨h4, hr.imp_right .inl⟩
    · simp only [windowBase] at ha
      omega
  · rintro ⟨h4, hreg⟩
    rw [← or_assoc] at hreg
    rcases hreg with hreg | ⟨hlo, hhi⟩
    · obtain ⟨r, hr⟩ := Reg.exists_offset_eq h4 hreg
      have ht := addrTarget_offset p r
      rw [hr, BitVec.ofNat_toNat, BitVec.setWidth_eq] at ht
      simp [ht]
    · have hbuf := Params.bufBytes_ge hp
      obtain ⟨k, hk⟩ : ∃ k, 0x8000 + 4 * k = a.toNat := ⟨(a.toNat - 0x8000) / 4, by omega⟩
      have ht := addrTarget_window_of_wf hp (k := k) (by omega)
      rw [hk, BitVec.ofNat_toNat, BitVec.setWidth_eq] at ht
      simp [ht]

/-! ## Accesses as steps -/

section
variable {s : State} {a : Half} {t : Target} {rest : List Event}

/-- A read outside the write set of the command in flight answers the word of the state it finds (R58, R61). -/
theorem step_read_mapped (h : s.inputs = .read a :: rest) (ht : addrTarget s.params a = some t)
    (hf : s.inFlight t = false) :
    step s = .next { s with inputs := rest, response := some (.read .okay (s.readTarget t)) } := by
  have hword : s.popInput.readTarget t = s.readTarget t := by
    rcases t with (_ | _ | _ | _ | r) | k <;> rfl
  rw [step_read h, hostRead_mapped (s := s.popInput) ht hf, hword, State.popInput_eq h]
  rfl

/-- An idle write to a window word is the `writeWindow` of it, answered OKAY (R54). -/
theorem step_write_window {k : Nat} {d : Word} (h : s.inputs = .write a d :: rest)
    (ht : addrTarget s.params a = some (.window k)) (hi : s.eng = .idle) :
    step s = .next (State.writeWindow { s with inputs := rest, response := some (.write .okay) } k d) := by
  rw [step_write h, hostWrite_mapped (s := s.popInput) d ht, writeTarget_idle (by exact hi), State.popInput_eq h]
  rfl

end

/-- Settles O11: a misaligned address is one of the unmapped ones, and those answer ERROR. -/
theorem unmappedAccessGetsError : Obligations.UnmappedAccessGetsError := by
  intro s a rest h
  have hn : addrTarget s.popInput.params a = none := h.elim (addrTarget_misaligned _) id
  refine ⟨fun hin => ?_, fun d hin => ?_⟩
  · rw [step_read hin, hostRead_unmapped hn, State.popInput_eq hin]
    rfl
  · rw [step_write hin, hostWrite_unmapped d hn, State.popInput_eq hin]
    rfl

/-- Settles O12, by what a read can do at all (`hostRead_eq`) and outside the write set. -/
theorem readChangesNothing : Obligations.ReadChangesNothing := by
  intro s a rest hin
  refine ⟨?_, fun t => step_read_mapped hin⟩
  obtain ⟨r, n, e, -⟩ := hostRead_eq a s.popInput
  exact ⟨r, n, by rw [step_read hin, e, State.popInput_eq hin]⟩

/-! ## The BUF window (R54) -/

/-- Byte `j` of a window word just written is byte `j` of the datum, counted from its most significant end. -/
theorem State.writeWindow_bufByte (s : State) (k : Nat) (d : Word) {j : Nat} (hj : j < 4) :
    (s.writeWindow k d).bufByte (4 * k + j) = d.extractLsb' (24 - 8 * j) 8 := by
  rw [State.bufByte_setBytes (s.writeWindow_buf k d) rfl, if_pos (by simpa using hj), Nat.add_sub_cancel_left]
  interval_cases j <;> rfl

/-- Settles O16: `bytes_of_append` for the read, `State.writeWindow_bufByte` and its frame for the write. -/
theorem windowWordIsBigEndian : Obligations.WindowWordIsBigEndian := by
  intro s k rest hp hk
  have ht := addrTarget_window_of_wf hp hk
  refine ⟨fun hin hf => ⟨_, step_read_mapped hin ht hf, bytes_of_append _ _ _ _⟩, fun d hin hi => ?_⟩
  refine ⟨_, step_write_window hin ht hi, State.writeWindow_bufByte _ k d (j := 0) (by omega),
    State.writeWindow_bufByte _ k d (by omega), State.writeWindow_bufByte _ k d (by omega),
    State.writeWindow_bufByte _ k d (by omega), fun i h => ?_, rfl⟩
  exact State.writeWindow_bufByte_of_ne _ (by omega) d

end Sys2Proof.Machine
end

section
/-! PROOFS of the statements about the command word and the host's programs (O5 to O8, O22, O36, O51, O52). -/

namespace Sys2Proof.Machine

/-! ## The command word (R84 to R88) -/

/-- Every command is read back from its word (R85). -/
@[simp] theorem decodeWord_encode (i : Instr) : decodeWord (encode i) = .ok i := by
  cases i with
  | crc z => exact (Laws.RoundTrip.crc z).2
  | encData => exact Laws.RoundTrip.encData.2
  | encAck => exact Laws.RoundTrip.encAck.2
  | encHb => exact Laws.RoundTrip.encHb.2
  | decode => exact Laws.RoundTrip.decode.2
  | classify => exact Laws.RoundTrip.classify.2

theorem decodeWord_eq_ok_iff {w : Word} {i : Instr} : decodeWord w = .ok i ↔ w = encode i :=
  ⟨eq_encode_of_decodeWord, fun h => h ▸ decodeWord_encode i⟩

/-- No command's word is illegal: its opcode is in the map, Z is 1 for CRC alone and the reserved bits are 0. -/
theorem not_illegalWord_encode (i : Instr) : ¬ illegalWord (encode i) := by
  unfold illegalWord
  cases i with
  | crc z => cases z <;> decide
  | _ => decide

theorem not_illegalWord_of_decodeWord_ok {w : Word} {i : Instr} (h : decodeWord w = .ok i) : ¬ illegalWord w :=
  decodeWord_eq_ok_iff.1 h ▸ not_illegalWord_encode i

/-- The opcode map refuses an OP outside the table, or Z = 1 with an OP other than CRC (R87). -/
theorem illegal_of_instrOfOp_error {op : Byte} {z : Bool} {e : Illegal} (h : instrOfOp op z = .error e) :
    (op = 0x00#8 ∨ 0x07 ≤ op.toNat) ∨ (z = true ∧ op ≠ 0x01#8) := by
  unfold instrOfOp at h
  split at h
  case h_1 => cases h
  case h_7 h1 h2 h3 h4 h5 h6 =>
    simp only [imp_false] at h1 h2 h3 h4 h5 h6
    have hop : op.toNat = 0 ∨ 0x07 ≤ op.toNat := by omega
    exact .inl (hop.imp_left BitVec.eq_of_toNat_eq)
  all_goals
    next hop =>
      cases z
      · cases h
      · refine .inr ⟨rfl, ?_⟩
        rintro rfl
        cases hop

/-- A word the decoder refuses is illegal (R87). -/
theorem illegalWord_of_decodeWord_error {w : Word} {e : Illegal} (h : decodeWord w = .error e) : illegalWord w := by
  unfold decodeWord at h
  split at h
  · next hres => exact .inr (.inr hres)
  · exact (illegal_of_instrOfOp_error h).imp_right .inl

/-- The decoder refuses exactly the illegal words (R87, R88). -/
theorem decodeWord_error_iff {w : Word} : (∃ e, decodeWord w = .error e) ↔ illegalWord w := by
  refine ⟨fun ⟨_, h⟩ => illegalWord_of_decodeWord_error h, fun h => ?_⟩
  cases hw : decodeWord w with
  | error e => exact ⟨e, rfl⟩
  | ok i => exact absurd h (not_illegalWord_of_decodeWord_ok hw)

/-- The seven legal words of R85. -/
def legalWords : List Word :=
  [0x00000001#32, 0x00000101#32, 0x00000002#32, 0x00000003#32, 0x00000004#32, 0x00000005#32, 0x00000006#32]

/-- The command words in the order of `legalWords`. -/
theorem legalWords_eq_map_encode :
    legalWords = [.crc false, .crc true, .encData, .encAck, .encHb, .decode, .classify].map encode := by decide

theorem mem_legalWords_iff {w : Word} : w ∈ legalWords ↔ ∃ i, decodeWord w = .ok i := by
  simp only [decodeWord_eq_ok_iff, legalWords_eq_map_encode, List.mem_map]
  constructor
  · rintro ⟨i, -, h⟩
    exact ⟨i, h.symm⟩
  · rintro ⟨i, rfl⟩
    refine ⟨i, ?_, rfl⟩
    cases i with
    | crc z => cases z <;> decide
    | _ => decide

/-- The mask 0xFFFFFEFF leaves OP and the reserved bits: what is left is 1 exactly in the two words of CRC. -/
theorem and_crcMask_eq_iff (w : Word) : w &&& 0xFFFFFEFF#32 = 0x00000001#32 ↔ ∃ z, w = encode (.crc z) := by
  constructor
  · intro h
    have hop : opField w = 0x01#8 := by
      have e : opField w &&& BitVec.allOnes 8 = 0x01#8 := BitVec.extractLsb'_and.symm.trans (congrArg opField h)
      rwa [BitVec.and_allOnes] at e
    have hres : reservedField w = 0#23 := by
      have e : reservedField w &&& BitVec.allOnes 23 = 0#23 :=
        BitVec.extractLsb'_and.symm.trans (congrArg reservedField h)
      rwa [BitVec.and_allOnes] at e
    have hw := word_of_fields w
    rw [hop, hres] at hw
    exact ⟨zField w, hw.symm⟩
  · rintro ⟨z, rfl⟩
    cases z <;> decide

/-- Settles O5, each word by evaluation. -/
theorem sampleWordsDecode : Obligations.SampleWordsDecode := by
  unfold Obligations.SampleWordsDecode
  decide

/-- Settles O6: the decoder reads back every command's word, and reads a command from no other word. -/
theorem decoderInvertsEncoder : Obligations.DecoderInvertsEncoder := fun _ _ => decodeWord_eq_ok_iff

/-- Settles O7: the words that decode are the seven legal ones, and those that do not are the illegal ones. -/
theorem everyWordIsLegalOrIllegal : Obligations.EveryWordIsLegalOrIllegal := by
  intro w
  cases hw : decodeWord w with
  | ok i => exact .inl ⟨mem_legalWords_iff.2 ⟨i, hw⟩, not_illegalWord_of_decodeWord_ok hw, i, rfl⟩
  | error e =>
    have hmem : w ∉ legalWords := fun h => by
      obtain ⟨i, hi⟩ := mem_legalWords_iff.1 h
      cases hw.symm.trans hi
    exact .inr ⟨hmem, illegalWord_of_decodeWord_error hw, e, rfl⟩

/-- Settles O8: the full mask leaves the word as it is, and CRC's mask is `and_crcMask_eq_iff`. -/
theorem decoderFollowsOpcodeTable : Obligations.DecoderFollowsOpcodeTable := by
  intro w
  have full : w &&& 0xFFFFFFFF#32 = w := BitVec.and_allOnes
  simp only [decodeWord_eq_ok_iff, full]
  exact ⟨and_crcMask_eq_iff w, .rfl, .rfl, .rfl, .rfl, .rfl⟩

/-- Settles O22: the decoder refuses the word, and the idle write of such a word to CMD is `State.reject`. -/
theorem illegalWordIsRejected : Obligations.IllegalWordIsRejected := by
  intro s w rest hi hin hw
  obtain ⟨e, he⟩ := decodeWord_error_iff.2 hw
  rw [step_write_reg (q := .cmd) hin, writeTarget_idle (by exact hi)]
  simp only [writeIdle, he]
  rfl

/-! ## The checksum of a frame (R77) -/

/-- Settles O36: the frame's own checksum is the one its header was built with (`fcrc_frame`), and the header holds it
in bytes 6 and 7 (`hdr_eq_wireHeader`). -/
theorem encodedFrameHoldsItsChecksum : Obligations.EncodedFrameHoldsItsChecksum := by
  intro t dev seq fl p
  rw [fcrc_frame, frame, hdr_eq_wireHeader]
  exact ⟨rfl, rfl⟩

/-! ## WRBUF (R91) -/

/-- The word whose bytes, most significant first, are the first four of a list, a missing byte being 0x00. -/
def paddedWord (l : List Byte) : Word := l.getD 0 0#8 ++ l.getD 1 0#8 ++ l.getD 2 0#8 ++ l.getD 3 0#8

theorem paddedWord_extractLsb' (l : List Byte) {j : Nat} (hj : j < 4) :
    (paddedWord l).extractLsb' (24 - 8 * j) 8 = l.getD j 0#8 := by
  obtain ⟨h0, h1, h2, h3⟩ := bytes_of_append (l.getD 0 0#8) (l.getD 1 0#8) (l.getD 2 0#8) (l.getD 3 0#8)
  interval_cases j
  · exact h0
  · exact h1
  · exact h2
  · exact h3

/-- A WRBUF with bytes left is the write of one padded word, then a WRBUF of the rest. -/
theorem wrbufEvents_cons (n : Nat) (b : Byte) (bs : List Byte) :
    wrbufEvents n (b :: bs) =
      .write (AsmTarget.bufPlus n).address (paddedWord (b :: bs)) :: wrbufEvents (n + 4) (bs.drop 3) := by
  match bs with
  | [] | [_] | [_, _] | _ :: _ :: _ :: _ => rfl

/-- Byte `i` of BUF after a WRBUF of `bytes` from byte `n`, where `old` is the byte before: the last word is filled
with 0x00. -/
def wrbufByte (n : Nat) (bytes : List Byte) (old : Byte) (i : Nat) : Byte :=
  if n ≤ i ∧ i < n + 4 * ((bytes.length + 3) / 4) then bytes.getD (i - n) 0#8 else old

/-- The first word of a WRBUF and the bytes after it. -/
theorem wrbufByte_cons (s : State) (k : Nat) (b : Byte) (bs : List Byte) (i : Nat) :
    wrbufByte (4 * (k + 1)) (bs.drop 3) ((s.writeWindow k (paddedWord (b :: bs))).bufByte i) i =
      wrbufByte (4 * k) (b :: bs) (s.bufByte i) i := by
  have hlen : (bs.length - 3 + 3) / 4 = (bs.length + 1 + 3) / 4 - 1 := by omega
  simp only [wrbufByte, List.length_drop, List.length_cons, hlen]
  by_cases hk : i / 4 = k
  · obtain ⟨j, rfl⟩ : ∃ j, i = 4 * k + j := ⟨i - 4 * k, by omega⟩
    rw [if_neg (by omega), if_pos (by omega), State.writeWindow_bufByte _ _ _ (by omega),
      paddedWord_extractLsb' _ (by omega), Nat.add_sub_cancel_left]
  · rw [State.writeWindow_bufByte_of_ne _ hk]
    by_cases hi : 4 * (k + 1) ≤ i ∧ i < 4 * k + 4 * ((bs.length + 1 + 3) / 4)
    · obtain ⟨j, rfl⟩ : ∃ j, i = 4 * k + 4 + j := ⟨i - (4 * k + 4), by omega⟩
      rw [if_pos (by omega), if_pos (by omega)]
      simp [List.getD_eq_getElem?_getD, show 4 * k + 4 + j - 4 * (k + 1) = j by omega,
        show 4 * k + 4 + j - 4 * k = 3 + j + 1 by omega]
    · rw [if_neg (by omega), if_neg (by omega)]

/-- The accesses of a WRBUF, one window word at a time. -/
theorem run_wrbufEvents (bytes : List Byte) (k : Nat) (s : State) (rest : List Event) (hi : s.eng = .idle)
    (hp : s.params.wf = true) (hfit : 4 * k + bytes.length ≤ s.params.bufBytes)
    (hin : s.inputs = wrbufEvents (4 * k) bytes ++ rest) :
    ∃ t, Host.Core.run Sys2Proof.core (wrbufEvents (4 * k) bytes).length s = .next t ∧
      (∀ i, t.bufByte i = wrbufByte (4 * k) bytes (s.bufByte i) i) ∧
      t = { s with inputs := rest, buf := t.buf, response := t.response } := by
  match bytes with
  | [] =>
    refine ⟨s, rfl, fun i => (if_neg ?_).symm, ?_⟩
    · simp only [List.length_nil]
      omega
    · rw [← (show s.inputs = rest from hin)]
  | b :: bs =>
    rw [wrbufEvents_cons] at hin ⊢
    rw [List.length_cons] at hfit
    have ht : addrTarget s.params (AsmTarget.bufPlus (4 * k)).address = some (.window k) :=
      addrTarget_window_of_wf hp (by omega)
    have hstep := step_write_window hin ht hi
    obtain ⟨hwords, -⟩ := Params.bufBytes_words hp
    obtain ⟨t, hrun, hbytes, heq⟩ := run_wrbufEvents (bs.drop 3) (k + 1)
      (State.writeWindow { s with inputs := wrbufEvents (4 * k + 4) (bs.drop 3) ++ rest,
                                  response := some (.write .okay) } k (paddedWord (b :: bs)))
      rest hi hp (by simp only [List.length_drop, State.writeWindow_params]; omega) rfl
    exact ⟨t, run_step hstep hrun, fun i => (hbytes i).trans (wrbufByte_cons _ k b bs i), heq⟩
termination_by bytes.length

/-- Settles O51: `run_wrbufEvents`, the zeros that fill the last word told apart from the bytes. -/
theorem wrbufFillsTheBuffer : Obligations.WrbufFillsTheBuffer := by
  intro s n bytes rest hi hp hn hfit hin
  obtain ⟨k, rfl⟩ := Nat.dvd_of_mod_eq_zero hn
  obtain ⟨t, hrun, hbytes, heq⟩ := run_wrbufEvents bytes k s rest hi hp hfit hin
  refine ⟨t, hrun, fun i => (hbytes i).trans ?_, heq⟩
  unfold wrbufByte
  by_cases hb : 4 * k ≤ i ∧ i < 4 * k + bytes.length
  · rw [if_pos hb, if_pos (by omega)]
  · rw [if_neg hb]
    split
    · exact List.getD_eq_default _ _ (by omega)
    · rfl

/-! ## WAIT (R91) -/

/-- One turn of a WAIT: the read of STATUS, the loop going on while BUSY. -/
theorem step_wait_turn {s : State} {rest : List Event} (hin : s.inputs = .wait :: rest) :
    step s = .next { s with response := some (.read .okay s.statusWord),
                            inputs := if s.busy then .engine :: .wait :: rest else rest } := by
  rw [step_wait hin, hostPoll_eq, State.popInput_eq hin]
  rfl

/-- A WAIT that finds the block BUSY: the read of STATUS and one engine step, the loop still to come (log 9). -/
theorem run_wait_busy {s : State} {rest : List Event} {k : Nat} {o : Host.Outcome State Fault Refusal}
    (hb : s.busy = true) (hin : s.inputs = .wait :: rest)
    (hrun : Host.Core.run Sys2Proof.core k (State.engineTick
      { s with response := some (.read .okay s.statusWord), inputs := .wait :: rest }) = o) :
    Host.Core.run Sys2Proof.core (k + 2) s = o := by
  have hpoll := step_wait_turn hin
  rw [if_pos hb] at hpoll
  exact run_step hpoll (run_step (step_engine rfl) hrun)

/-- A completion keeps the last response and the events to come, and does not depend on them or on the latency left. -/
theorem State.complete_of_access {s : State} {p : Pending} {n m : Nat} {e : Eng} (h : s.eng = .busy p n)
    (he : e = .busy p m) (rs : Option BusResponse) (ins : List Event) :
    State.complete { s with eng := e, response := rs, inputs := ins } =
      { s.complete with response := rs, inputs := ins } := by
  rw [State.complete_of_eng s h, State.complete_of_eng _ (by exact he)]
  have := State.applyWrites_congr (s := s) (t := { s with eng := e, response := rs, inputs := ins }) rfl rfl
    p.res.writes
  simp [this]

/-- STATUS after a completion has BUSY 0 (R137). -/
theorem State.statusWord_complete_busy (s : State) : s.complete.statusWord.getLsbD 0 = false := by
  obtain ⟨hbusy, -, -, -⟩ := s.complete.statusWord_getLsbD
  rw [hbusy, State.busy_of_idle _ s.complete_eng]

/-- A WAIT with `n + 1` engine steps left runs to the completed state: while BUSY a poll and an engine step alternate,
and the poll that follows the completion is the last. -/
theorem run_wait {p : Pending} {rest : List Event} (n : Nat) (s : State) (he : s.eng = .busy p (n + 1))
    (hin : s.inputs = .wait :: rest) :
    ∃ k, Host.Core.run Sys2Proof.core k s =
      .next { s.complete with inputs := rest, response := some (.read .okay s.complete.statusWord) } := by
  have hb := s.busy_of_eng he
  induction n generalizing s with
  | zero =>
    refine ⟨3, run_wait_busy hb hin ?_⟩
    rw [State.engineTick_last (by exact he) (by omega), State.complete_of_access he he]
    refine run_step (step_wait_turn (rest := rest) rfl) ?_
    rw [if_neg (by simp [State.complete_eng])]
    rfl
  | succ n ih =>
    obtain ⟨k, hrun⟩ := ih
      { s with eng := .busy p (n + 1), response := some (.read .okay s.statusWord), inputs := .wait :: rest } rfl rfl rfl
    refine ⟨k + 2, run_wait_busy hb hin ?_⟩
    rw [State.engineTick_more (by exact he), hrun, State.complete_of_access he rfl]
    rfl

/-- Settles O52: `run_wait`, and the last STATUS read is that of the completed state. -/
theorem waitEndsAtTheCompletion : Obligations.WaitEndsAtTheCompletion := by
  intro s p n rest he hin
  obtain ⟨k, hrun⟩ := run_wait n s he hin
  exact ⟨k, _, hrun, rfl, s.statusWord_complete_busy⟩

end Sys2Proof.Machine
end

section
/-! PROOFS of the statements about the CRC-16 family (O33 to O35) and of the detection of a changed frame (O46). -/

namespace Sys2Proof.Machine

/-! ## The primitive (R95, R96) -/

theorem crcShifts_eq_iterate (n : Nat) (r : Half) : crcShifts n r = crcShift^[n] r := by
  induction n generalizing r with
  | zero => rfl
  | succ n ih => exact ih (crcShift r)

/-- Settles O33: `crc16` is a left fold of `crcByte`, and `crcByte` is an XOR and eight shifts. -/
theorem crc16GoesByteByByte : Obligations.Crc16GoesByteByByte :=
  ⟨rfl, fun s b => crc16_append s [b], fun r b => crcShifts_eq_iterate 8 (r ^^^ b.setWidth 16), crc16_append⟩

/-! ## The frame checksum (R98) -/

/-- The two writes that zero the checksum field, said index by index. -/
theorem zeroCsum_eq_mapIdx (s : List Byte) :
    zeroCsum s = s.mapIdx (fun i b => if i = 6 ∨ i = 7 then 0x00#8 else b) := by
  apply List.ext_getElem?
  intro i
  rw [zeroCsum_getElem?, List.getElem?_mapIdx]
  by_cases h : i = 6 ∨ i = 7
  · simp only [if_pos h]
  · simp only [if_neg h, Option.map_id_fun', id]

/-- Settles O34, by `zeroCsum_eq_mapIdx`. -/
theorem frameChecksumZeroesItsField : Obligations.FrameChecksumZeroesItsField := fun s => by
  rw [fcrc, zeroCsum_eq_mapIdx]

/-! ## CRC and CRC.Z (R97) -/

theorem State.bufSeq_eq_map_range (s : State) (n : Nat) : s.bufSeq 0 n = (List.range n).map s.bufByte := by
  apply List.ext_getElem?
  intro i
  rw [State.getElem?_bufSeq, List.getElem?_map]
  by_cases h : i < n <;> simp [h]

/-- CRC_OUT of the command CRC, its bytes taken one by one and masked when Z = 1. -/
theorem crc_of_buffer (s : State) (z : Bool) (n : Nat) :
    (if z then fcrc (s.bufSeq 0 n) else crc16 (s.bufSeq 0 n)) =
      crc16 ((List.range n).map (fun i => if z = true ∧ (i = 6 ∨ i = 7) then 0x00#8 else s.bufByte i)) := by
  cases z with
  | false => simp [State.bufSeq_eq_map_range]
  | true =>
    rw [if_pos rfl, fcrc, zeroCsum_eq_mapIdx, State.bufSeq_eq_map_range]
    congr 1
    apply List.ext_getElem <;> simp

theorem encode_crc (z : Bool) : encode (.crc z) = if z then 0x00000101#32 else 0x00000001#32 := by
  cases z <;> rfl

/-- Settles O35: CRC in range runs to its one write (`applyWrites_crc`), CRC out of range is `State.reject`. -/
theorem crcWritesTheChecksumOfTheBuffer : Obligations.CrcWritesTheChecksumOfTheBuffer := by
  intro z s hi
  constructor
  · intro hl
    obtain ⟨t, hex, hbusy, hfin⟩ := exec_finish (i := .crc z) hi (fun _ => hl)
    refine ⟨t, hex, hbusy, ?_⟩
    rw [hfin, ← hi, commandResult, applyWrites_crc, crc_of_buffer, opField_encode, encode_crc]
    rfl
  · intro hl
    rw [exec_lenRange hi rfl hl, State.reject, opField_encode, encode_crc]
    rfl

/-! ## One byte changed (R98, R100) -/

/-- A change of one byte changes the CRC-16: the registers differ right after that byte, and no later byte makes them
meet again. -/
theorem crc16_set_ne {s : List Byte} {k : Nat} (hk : k < s.length) {b : Byte} (hb : b ≠ s[k]) :
    crc16 (s.set k b) ≠ crc16 s := by
  intro h
  rw [List.set_eq_take_append_cons_drop, if_pos hk, crc16_append] at h
  conv_rhs at h => rw [← List.take_append_drop k s, List.drop_eq_getElem_cons hk, crc16_append]
  exact hb (crcByte_right_injective _ (foldl_crcByte_injective (s.drop (k + 1)) h))

theorem zeroCsum_eq_set (s : List Byte) : zeroCsum s = (s.set 6 0#8).set 7 0#8 := rfl

/-- The frame checksum does not read its own field. -/
theorem fcrc_set_of_csum (s : List Byte) {k : Nat} (hk : k = 6 ∨ k = 7) (b : Byte) : fcrc (s.set k b) = fcrc s := by
  have hz : zeroCsum (s.set k b) = zeroCsum s := by
    rcases hk with rfl | rfl
    · rw [zeroCsum_eq_set, List.set_set, zeroCsum_eq_set]
    · rw [zeroCsum_eq_set, List.set_comm b _ (by decide), List.set_set, zeroCsum_eq_set]
  rw [fcrc, hz, fcrc]

/-- A change of one byte outside the checksum field changes the frame checksum. -/
theorem fcrc_set_ne {s : List Byte} {k : Nat} (hk : k < s.length) (h6 : k ≠ 6) (h7 : k ≠ 7) {b : Byte}
    (hb : b ≠ s[k]) : fcrc (s.set k b) ≠ fcrc s := by
  have hz : zeroCsum (s.set k b) = (zeroCsum s).set k b := by
    rw [zeroCsum_eq_set, List.set_comm _ _ h6, List.set_comm _ _ h7, zeroCsum_eq_set]
  rw [fcrc, hz, fcrc]
  refine crc16_set_ne (by simpa using hk) ?_
  simpa [zeroCsum_eq_set, List.getElem_set_ne, h6.symm, h7.symm] using hb

theorem State.bufSeq_setBuf (s : State) (k n : Nat) (b : Byte) :
    (s.setBuf k b).bufSeq 0 n = (s.bufSeq 0 n).set k b := by
  apply List.ext_getElem?
  intro i
  simp only [State.getElem?_bufSeq, List.getElem?_set, State.bufSeq_length, State.bufByte_setBuf, Nat.zero_add]
  by_cases h : k = i
  · subst h; simp
  · simp [h, Ne.symm h]

theorem State.getElem_bufSeq (s : State) {n k : Nat} (hk : k < (s.bufSeq 0 n).length) :
    (s.bufSeq 0 n)[k] = s.bufByte k := by
  simp only [State.bufSeq_eq_map_range, List.getElem_map, List.getElem_range]

/-- Two 16-bit fields are equal exactly when their two bytes are. -/
theorem State.buf16_eq_iff (s t : State) (i : Nat) :
    t.buf16 i = s.buf16 i ↔ t.bufByte i = s.bufByte i ∧ t.bufByte (i + 1) = s.bufByte (i + 1) := by
  constructor
  · intro h
    have hhi := congrArg hi8 h
    have hlo := congrArg lo8 h
    simp only [State.buf16, hi8_lo8_append] at hhi hlo
    exact ⟨hhi, hlo⟩
  · rintro ⟨hhi, hlo⟩
    rw [State.buf16, hhi, hlo, State.buf16]

/-- No change of a single byte takes a valid frame to a valid one: in the checksum field it changes the embedded value
and not the computed one, elsewhere the computed one and not the embedded one. -/
theorem fcrc_ne_buf16_of_setBuf {s : State} {n k : Nat} (hv : fcrc (s.bufSeq 0 n) = s.buf16 6) (hk : k < n) {b : Byte}
    (hb : b ≠ s.bufByte k) : fcrc ((s.setBuf k b).bufSeq 0 n) ≠ (s.setBuf k b).buf16 6 := by
  rw [State.bufSeq_setBuf]
  by_cases h : k = 6 ∨ k = 7
  · rw [fcrc_set_of_csum _ h, hv, ne_comm, ne_eq, State.buf16_eq_iff, State.bufByte_setBuf, State.bufByte_setBuf]
    rcases h with rfl | rfl
    · exact fun e => hb e.1
    · exact fun e => hb e.2
  · have hemb : (s.setBuf k b).buf16 6 = s.buf16 6 := by
      rw [State.buf16_eq_iff, State.bufByte_setBuf, State.bufByte_setBuf, if_neg (by omega), if_neg (by omega)]
      exact ⟨rfl, rfl⟩
    rw [hemb, ← hv]
    exact fcrc_set_ne (by simpa using hk) (by omega) (by omega) (by rwa [State.getElem_bufSeq])

/-! ## A changed frame and DECODE (R100) -/

theorem flipBit_ne (b : Byte) {j : Nat} (hj : j < 8) : b ^^^ (0x01#8 <<< j) ≠ b := by
  intro h
  have hbit := congrArg (BitVec.getLsbD · j) h
  simp [hj] at hbit

/-- The checksum check of DECODE (R111). -/
theorem decodeCode_eq_badChecksum {s : State} (hl : 10 ≤ s.regs.len.toNat)
    (h : fcrc (s.bufSeq 0 s.regs.len.toNat) ≠ s.buf16 6) : decodeCode s = .badChecksum := by
  have hne : (fcrc (s.bufSeq 0 s.regs.len.toNat)).toNat ≠ s.memRead Config.cksumOff 2 := by
    rw [Config.cksumOff, State.memRead_two]
    exact fun e => h (BitVec.eq_of_toNat_eq e)
  unfold decodeCode
  rw [if_neg (not_lt.2 hl : ¬ s.regs.len.toNat < Config.headerLen), if_pos hne]

/-- A DECODE that fails writes no register but CRC_OUT (R114). -/
theorem applyWrites_decode_get_of_failure {s : State} (h : decodeCode s ≠ .ok) {r : DataReg} (hr : r ≠ .crcOut) :
    (s.applyWrites (decodeResult s).writes).regs.get r = s.regs.get r := by
  refine State.applyWrites_get_of_not_mem _ s r fun v hv => ?_
  obtain ⟨_, hw⟩ | ⟨hok, -⟩ | ⟨hok, -⟩ := mem_decodeResult hv
  · exact hr (EngWrite.reg.inj hw).1
  · exact h hok
  · exact h hok

/-- Settles O46: the changed frame is not valid (`fcrc_ne_buf16_of_setBuf`), so DECODE fails its checksum check and
writes no field. -/
theorem singleBitFlipIsDetected : Obligations.SingleBitFlipIsDetected := by
  intro s k j hi hl hcap hv hk hj
  have hcode : decodeCode (s.setBuf k (s.bufByte k ^^^ (0x01#8 <<< j))) = .badChecksum :=
    decodeCode_eq_badChecksum hl (fcrc_ne_buf16_of_setBuf hv hk (flipBit_ne _ hj))
  obtain ⟨t, hex, -, hfin⟩ := exec_finish (i := .decode) (s := s.setBuf k _) hi (fun _ => hcap)
  refine ⟨t, hex, by rw [hfin]; exact hcode, fun r hr => ?_⟩
  rw [hfin]
  exact applyWrites_decode_get_of_failure (by rw [hcode]; decide) (by rintro rfl; exact absurd hr (by decide))

end Sys2Proof.Machine
end

section
/-! PROOFS of the statements about the framer: the encoders (O37 to O40), DECODE (O41 to O43) and the round trip through
both (O45). -/

namespace Sys2Proof.Machine

/-! ## An encoder run to its completion (R106 to R109) -/

/-- Command `i`, issued in `s`, encodes the frame of these header fields and this payload (R105). -/
structure Encodes (i : Instr) (s : State) (ty : Byte) (dev seq fl : Half) (p : List Byte) : Prop where
  checksLen : Instr.checksLen i = false
  result : commandResult i s = encoderResult (frame ty dev seq fl p) (frameCsum ty dev seq fl p)

section
variable (s : State)

theorem encData_encodes : Encodes .encData s s.params.mtData s.regs.fldDevid s.regs.fldSeq s.regs.fldFlags
    (wirePayload s.regs) :=
  ⟨rfl, by rw [← payload_eq_wirePayload]; rfl⟩

theorem encAck_encodes : Encodes .encAck s s.params.mtAck s.regs.fldDevid s.regs.fldSeq 0#16 [] := ⟨rfl, rfl⟩

theorem encHb_encodes :
    Encodes .encHb s s.params.mtHeartbeat s.regs.fldDevid s.regs.fldSeq s.regs.fldFlags [] := ⟨rfl, rfl⟩

theorem exists_encodes {e : Instr × Nat} (he : e ∈ encoders) :
    ∃ ty dev seq fl p, Encodes e.1 s ty dev seq fl p ∧ 10 + p.length = e.2 := by
  simp only [encoders, List.mem_cons, List.not_mem_nil, or_false] at he
  rcases he with rfl | rfl | rfl
  · exact ⟨_, _, _, _, _, encData_encodes s, rfl⟩
  · exact ⟨_, _, _, _, _, encAck_encodes s, rfl⟩
  · exact ⟨_, _, _, _, _, encHb_encodes s, rfl⟩

end

/-- The frame stands in BUF from byte 0, LEN and CRC_OUT are its length and checksum, and nothing else is written. -/
theorem Encodes.finish {i : Instr} {s : State} {ty : Byte} {dev seq fl : Half} {p : List Byte}
    (h : Encodes i s ty dev seq fl p) (hi : s.eng = .idle) :
    ∃ t, exec i s = .next t ∧ t.busy = true ∧
      (∀ j, t.finish.bufByte j =
        if j < 10 + p.length then (wireFrame ty dev seq fl p).getD j 0 else s.bufByte j) ∧
      t.finish = { s with
        cmd := encode i, buf := t.finish.buf
        regs := { s.regs with
          len := BitVec.ofNat 16 (10 + p.length), crcOut := crc16 (wireHeader ty dev seq 0#16 fl ++ p) }
        result := .ok, lastOp := i.op, done := true, draws := s.draws + 1, latencies := s.latencies.tail } := by
  obtain ⟨t, hex, hbusy, hfin⟩ := exec_finish (i := i) hi fun hc => by simp [h.checksLen] at hc
  rw [h.result, applyWrites_encoder, ← hi, opField_encode, frame_length, frame_eq_wireFrame, frameCsum,
    hdr_eq_wireHeader] at hfin
  refine ⟨t, hex, hbusy, fun j => ?_, by rw [hfin]; rfl⟩
  have hbyte := State.bufByte_setBytes (s := s) (t := t.finish) (a := 0) (f := wireFrame ty dev seq fl p)
    (by rw [hfin]) (by rw [hfin]) j
  simpa only [← frame_eq_wireFrame, frame_length, Nat.zero_le, true_and, Nat.zero_add, Nat.sub_zero] using hbyte

/-- Settles O37: ENC_DATA encodes the DATA frame of the field registers (`encData_encodes`). -/
theorem encDataWritesTheDataFrame : Obligations.EncDataWritesTheDataFrame := by
  intro s hi
  obtain ⟨t, hex, hbusy, hbytes, hfin⟩ := (encData_encodes s).finish hi
  exact ⟨t, t.finish, _, hex, hbusy, rfl, rfl, rfl, hbytes, hfin⟩

/-- Settles O38: ENC_ACK encodes the ACK frame with flags 0 (`encAck_encodes`). -/
theorem encAckWritesTheAckFrame : Obligations.EncAckWritesTheAckFrame := by
  intro s hi
  obtain ⟨t, hex, hbusy, hbytes, hfin⟩ := (encAck_encodes s).finish hi
  exact ⟨t, t.finish, _, hex, hbusy, rfl, rfl, rfl, hbytes, hfin⟩

/-- Settles O39: ENC_HB encodes the HEARTBEAT frame with the flags of FLD_FLAGS (`encHb_encodes`). -/
theorem encHbWritesTheHeartbeatFrame : Obligations.EncHbWritesTheHeartbeatFrame := by
  intro s hi
  obtain ⟨t, hex, hbusy, hbytes, hfin⟩ := (encHb_encodes s).finish hi
  exact ⟨t, t.finish, _, hex, hbusy, rfl, rfl, rfl, hbytes, hfin⟩

/-- The rule of an encoder reads the message types and the field registers alone (R109). -/
theorem commandResult_encoder_congr {s s' : State} {e : Instr × Nat} (he : e ∈ encoders) (hp : s'.params = s.params)
    (hg : ∀ r, r ∈ fieldRegs → s'.readReg (.data r) = s.readReg (.data r)) :
    commandResult e.1 s' = commandResult e.1 s := by
  have hregs : s'.regs = { s.regs with
      len := s'.regs.len, crcOut := s'.regs.crcOut, seqLast := s'.regs.seqLast, seqIn := s'.regs.seqIn
      seqRes := s'.regs.seqRes, seqLoss := s'.regs.seqLoss } := by
    refine DataRegs.ext_get fun r => ?_
    have hr : r ∈ fieldRegs → s'.regs.get r = s.regs.get r := hg r
    cases r
    case len | crcOut | seqLast | seqIn | seqRes | seqLoss => rfl
    all_goals exact hr (by decide)
  simp only [encoders, List.mem_cons, List.not_mem_nil, or_false] at he
  rcases he with rfl | rfl | rfl
  · simp only [commandResult, encDataResult, hp]
    rw [hregs]
    rfl
  · simp only [commandResult, encAckResult, hp]
    rw [hregs]
  · simp only [commandResult, encHbResult, hp]
    rw [hregs]

/-- Settles O40: the frame of `Encodes.finish` and its frame condition; two states with the same fields have the
same rule result (`commandResult_encoder_congr`). -/
theorem encodersWriteOnlyTheirFrame : Obligations.EncodersWriteOnlyTheirFrame := by
  intro e he s hi
  obtain ⟨ty, dev, seq, fl, p, henc, hlen⟩ := exists_encodes s he
  obtain ⟨t, hex, -, hbytes, hfin⟩ := henc.finish hi
  rw [hlen] at hbytes hfin
  have hframe : ∀ r, r ≠ .len → r ≠ .crcOut → t.finish.readReg (.data r) = s.readReg (.data r) := by
    intro r h1 h2
    rw [hfin]
    cases r
    case len => exact absurd rfl h1
    case crcOut => exact absurd rfl h2
    all_goals rfl
  have hn : (BitVec.ofNat 16 e.2).toNat = e.2 := by
    simp only [encoders, List.mem_cons, List.not_mem_nil, or_false] at he
    rcases he with rfl | rfl | rfl <;> rfl
  refine ⟨t, hex, by rw [hfin]; exact hn, fun j hj => by rw [hbytes, if_neg (not_lt.2 hj)], hframe,
    by rw [hfin], by rw [hfin], by rw [hfin], fun s' t' hi' hp hg hex' => ?_⟩
  have henc' : Encodes e.1 s' ty dev seq fl p :=
    ⟨henc.checksLen, (commandResult_encoder_congr he hp hg).trans henc.result⟩
  obtain ⟨u, hu, -, hbytes', hfin'⟩ := henc'.finish hi'
  obtain rfl : u = t' := by simpa [hu] using hex'
  rw [hlen] at hbytes'
  exact ⟨by rw [hfin', hfin], fun j hj => by rw [hbytes, hbytes', if_pos hj, if_pos hj]⟩

/-! ## DECODE run to its completion (R110 to R114) -/

/-- The checks of DECODE in order, the embedded checksum as a 16-bit field (R111). -/
theorem decodeCode_eq (s : State) : decodeCode s =
    if s.regs.len.toNat < 10 then .tooShort
    else if fcrc (s.bufSeq 0 s.regs.len.toNat) ≠ s.buf16 6 then .badChecksum
    else if s.bufByte 0 ≠ 0x01#8 then .unsupportedVersion
    else if s.bufByte 1 = s.params.mtData ∧ s.regs.len.toNat < 30 then .tooShort
    else .ok := by
  simp only [decodeCode, State.frameIsData, Config.cksumOff, State.memRead_two, ne_eq, BitVec.toNat_inj,
    Bool.and_eq_true, beq_iff_eq, decide_eq_true_eq]
  rfl

/-- DECODE in range: its code, CRC_OUT when LEN ≥ 10, and the field registers when the code is OK. -/
theorem decode_finish {s : State} (hi : s.eng = .idle) (hl : s.regs.len.toNat ≤ s.params.bufBytes) :
    ∃ t, exec .decode s = .next t ∧ t.busy = true ∧ t.finish = { s with
      cmd := 0x00000005#32
      regs := { (if decodeCode s = .ok then decodedRegs s else s.regs) with
        crcOut := if s.regs.len.toNat < 10 then s.regs.crcOut else fcrc (s.bufSeq 0 s.regs.len.toNat) }
      result := decodeCode s, lastOp := 0x05#8, done := true
      draws := s.draws + 1, latencies := s.latencies.tail } := by
  obtain ⟨t, hex, hbusy, hfin⟩ := exec_finish (i := .decode) hi (fun _ => hl)
  rw [commandResult, applyWrites_decode, ← hi, opField_encode] at hfin
  exact ⟨t, hex, hbusy, hfin⟩

/-- Settles O41: out of range DECODE is `State.reject`; in range its code is `decodeCode_eq`. -/
theorem decodeChecksInOrder : Obligations.DecodeChecksInOrder := by
  intro s hi
  refine ⟨fun hl => by rw [exec_lenRange hi rfl hl, State.reject, opField_encode]; rfl, fun hl => ?_⟩
  obtain ⟨t, hex, hbusy, hfin⟩ := decode_finish hi hl
  exact ⟨t, hex, hbusy, by rw [hfin, hi], by rw [hfin], by rw [hfin], by rw [hfin, decodeCode_eq]⟩

theorem decodeCode_eq_ok {s : State} (h10 : 10 ≤ s.regs.len.toNat)
    (hv : fcrc (s.bufSeq 0 s.regs.len.toNat) = s.buf16 6) (h0 : s.bufByte 0 = 0x01#8)
    (h30 : s.bufByte 1 = s.params.mtData → 30 ≤ s.regs.len.toNat) : decodeCode s = .ok := by
  rw [decodeCode_eq, if_neg (not_lt.2 h10), if_neg (not_not.2 hv), if_neg (not_not.2 h0),
    if_neg fun ⟨hd, hl⟩ => absurd (h30 hd) (not_le.2 hl)]

theorem decodedRegs_of_data {s : State} (h : s.bufByte 1 = s.params.mtData) : decodedRegs s = { s.regs with
    fldVer := s.bufByte 0, fldType := s.bufByte 1, fldDevid := s.buf16 2, fldSeq := s.buf16 4, fldCsum := s.buf16 6
    fldFlags := s.buf16 8, fldLat := s.buf32 10, fldLon := s.buf32 14, fldAlt := s.buf16 18, fldTs := s.buf32 20
    fldSpeed := s.buf16 24, fldHeading := s.buf16 26, fldBatt := s.bufByte 28, fldStatus := s.bufByte 29 } :=
  if_pos (beq_iff_eq.2 h)

theorem decodedRegs_of_not_data {s : State} (h : s.bufByte 1 ≠ s.params.mtData) : decodedRegs s = { s.regs with
    fldVer := s.bufByte 0, fldType := s.bufByte 1, fldDevid := s.buf16 2, fldSeq := s.buf16 4, fldCsum := s.buf16 6
    fldFlags := s.buf16 8 } :=
  if_neg fun e => h (beq_iff_eq.1 e)

/-- Settles O42: the checks pass (`decodeCode_eq_ok`), and the fields are those of `decodedRegs`, by the type byte. -/
theorem decodeOkWritesTheFields : Obligations.DecodeOkWritesTheFields := by
  intro s hi hl h10 hv h0 h30
  obtain ⟨t, hex, hbusy, hfin⟩ := decode_finish hi hl
  rw [if_pos (decodeCode_eq_ok h10 hv h0 h30), decodeCode_eq_ok h10 hv h0 h30, if_neg (not_lt.2 h10), hv] at hfin
  refine ⟨t, hex, hbusy, hfin.trans ?_⟩
  by_cases hd : s.bufByte 1 = s.params.mtData
  · rw [if_pos hd, decodedRegs_of_data hd, h0]
  · rw [if_neg hd, decodedRegs_of_not_data hd, h0]

/-- Settles O43: a code other than OK leaves `decode_finish` the write of CRC_OUT alone. -/
theorem decodeFailureKeepsTheFields : Obligations.DecodeFailureKeepsTheFields := by
  intro s hi hl
  obtain ⟨t, hex, hbusy, hfin⟩ := decode_finish hi hl
  refine ⟨t, hex, hbusy, fun hne => ?_, fun h10 => by rw [hfin]; exact if_neg (not_lt.2 h10)⟩
  have hcode : decodeCode s ≠ .ok := by rwa [hfin] at hne
  rw [if_neg hcode] at hfin
  rw [hfin]

/-! ## A frame in BUF, decoded (R118) -/

/-- The LEN bytes in BUF are the frame of these header fields and this payload. -/
def State.HoldsFrame (s : State) (ty : Byte) (dev seq fl : Half) (p : List Byte) : Prop :=
  s.bufSeq 0 s.regs.len.toNat = frame ty dev seq fl p

namespace State.HoldsFrame

variable {s : State} {ty : Byte} {dev seq fl : Half} {p : List Byte} (h : s.HoldsFrame ty dev seq fl p)
include h

theorem len_eq : s.regs.len.toNat = 10 + p.length := by
  simpa using congrArg List.length h

theorem bufByte_eq {i : Nat} (hi : i < 10 + p.length) : s.bufByte i = (wireFrame ty dev seq fl p).getD i 0 := by
  have hget := congrArg (·[i]?) h
  simp only [State.getElem?_bufSeq, h.len_eq, Nat.sub_zero, hi, if_true, Nat.zero_add, frame_eq_wireFrame] at hget
  rw [List.getD_eq_getElem?_getD, ← hget, Option.getD_some]

theorem buf16_eq {i : Nat} (hi : i + 1 < 10 + p.length) {v : Half} (hhi : (wireFrame ty dev seq fl p).getD i 0 = hi8 v)
    (hlo : (wireFrame ty dev seq fl p).getD (i + 1) 0 = lo8 v) : s.buf16 i = v := by
  rw [State.buf16, h.bufByte_eq (by omega), h.bufByte_eq hi, hhi, hlo, append_hi8_lo8]

theorem buf32_eq {i : Nat} (hi : i + 3 < 10 + p.length) {v : Word}
    (hv : [(wireFrame ty dev seq fl p).getD i 0, (wireFrame ty dev seq fl p).getD (i + 1) 0,
      (wireFrame ty dev seq fl p).getD (i + 2) 0, (wireFrame ty dev seq fl p).getD (i + 3) 0] = wire32 v) :
    s.buf32 i = v := by
  simp only [wire32, List.cons.injEq, and_true] at hv
  obtain ⟨h0, h1, h2, h3⟩ := hv
  rw [State.buf32, h.bufByte_eq (by omega), h.bufByte_eq (by omega), h.bufByte_eq (by omega), h.bufByte_eq hi, h0, h1,
    h2, h3, append_wire32]

theorem version_eq : s.bufByte 0 = 0x01#8 := h.bufByte_eq (by omega)
theorem type_eq : s.bufByte 1 = ty := h.bufByte_eq (by omega)
theorem devid_eq : s.buf16 2 = dev := h.buf16_eq (by omega) rfl rfl
theorem seq_eq : s.buf16 4 = seq := h.buf16_eq (by omega) rfl rfl
theorem csum_eq : s.buf16 6 = crc16 (wireHeader ty dev seq 0#16 fl ++ p) := h.buf16_eq (by omega) rfl rfl
theorem flags_eq : s.buf16 8 = fl := h.buf16_eq (by omega) rfl rfl

/-- The checksum DECODE computes is the one the frame holds (R77). -/
theorem fcrc_eq : fcrc (s.bufSeq 0 s.regs.len.toNat) = s.buf16 6 := by
  have hc : fcrc (s.bufSeq 0 s.regs.len.toNat) = frameCsum ty dev seq fl p :=
    (congrArg fcrc h).trans (fcrc_frame ty dev seq fl p)
  rw [hc, frameCsum, hdr_eq_wireHeader, h.csum_eq]

theorem decodeCode_eq_ok (hd : ty = s.params.mtData → p.length = 20) : decodeCode s = .ok :=
  Machine.decodeCode_eq_ok (by rw [h.len_eq]; omega) h.fcrc_eq h.version_eq
    (fun e => by rw [h.len_eq, hd (h.type_eq ▸ e)])

/-- The fields DECODE takes from a frame that is not DATA (R112). -/
theorem decodedRegs_eq_header (hd : ty ≠ s.params.mtData) : decodedRegs s = { s.regs with
    fldVer := 0x01#8, fldType := ty, fldDevid := dev, fldSeq := seq
    fldCsum := crc16 (wireHeader ty dev seq 0#16 fl ++ p), fldFlags := fl } := by
  rw [decodedRegs_of_not_data (by rwa [h.type_eq]), h.version_eq, h.type_eq, h.devid_eq, h.seq_eq, h.csum_eq,
    h.flags_eq]

end State.HoldsFrame

/-- The fields DECODE takes from the DATA frame of a register file (R113). -/
theorem State.HoldsFrame.decodedRegs_eq_data {s : State} {dev seq fl : Half} {g : DataRegs}
    (h : s.HoldsFrame s.params.mtData dev seq fl (wirePayload g)) :
    decodedRegs s = { s.regs with
      fldVer := 0x01#8, fldType := s.params.mtData, fldDevid := dev, fldSeq := seq
      fldCsum := crc16 (wireHeader s.params.mtData dev seq 0#16 fl ++ wirePayload g), fldFlags := fl
      fldLat := g.fldLat, fldLon := g.fldLon, fldAlt := g.fldAlt, fldTs := g.fldTs, fldSpeed := g.fldSpeed
      fldHeading := g.fldHeading, fldBatt := g.fldBatt, fldStatus := g.fldStatus } := by
  have hl : 10 + (wirePayload g).length = 30 := rfl
  have hlat : s.buf32 10 = g.fldLat := h.buf32_eq (by omega) rfl
  have hlon : s.buf32 14 = g.fldLon := h.buf32_eq (by omega) rfl
  have halt : s.buf16 18 = g.fldAlt := h.buf16_eq (by omega) rfl rfl
  have hts : s.buf32 20 = g.fldTs := h.buf32_eq (by omega) rfl
  have hspeed : s.buf16 24 = g.fldSpeed := h.buf16_eq (by omega) rfl rfl
  have hheading : s.buf16 26 = g.fldHeading := h.buf16_eq (by omega) rfl rfl
  have hbatt : s.bufByte 28 = g.fldBatt := h.bufByte_eq (by omega)
  have hstatus : s.bufByte 29 = g.fldStatus := h.bufByte_eq (by omega)
  rw [decodedRegs_of_data h.type_eq, h.version_eq, h.type_eq, h.devid_eq, h.seq_eq, h.csum_eq, h.flags_eq, hlat, hlon,
    halt, hts, hspeed, hheading, hbatt, hstatus]

/-- An encoder leaves its frame in BUF, and DECODE then reports OK and writes the fields of that frame. -/
theorem Encodes.decode_finish {i : Instr} {s : State} {ty : Byte} {dev seq fl : Half} {p : List Byte}
    (h : Encodes i s ty dev seq fl p) (hi : s.eng = .idle) (hp : s.params.wf = true) (hn : p.length ≤ 20)
    (hd : ty = s.params.mtData → p.length = 20) :
    ∃ t v, exec i s = .next t ∧ exec .decode t.finish = .next v ∧ v.finish.result = .ok ∧
      t.finish.HoldsFrame ty dev seq fl p ∧ t.finish.params = s.params ∧
      t.finish.regs = { s.regs with
        len := BitVec.ofNat 16 (10 + p.length), crcOut := crc16 (wireHeader ty dev seq 0#16 fl ++ p) } ∧
      v.finish.regs = { decodedRegs t.finish with crcOut := crc16 (wireHeader ty dev seq 0#16 fl ++ p) } := by
  obtain ⟨t, hex, -, hbytes, hfin⟩ := h.finish hi
  have hlen : t.finish.regs.len.toNat = 10 + p.length := by
    rw [hfin, BitVec.toNat_ofNat, Nat.mod_eq_of_lt (by omega)]
  have hparams : t.finish.params = s.params := by rw [hfin]
  have hholds : t.finish.HoldsFrame ty dev seq fl p := by
    have hf := State.bufSeq_eq_of_bytes (s := t.finish) (f := frame ty dev seq fl p) fun j hj => by
      rw [hbytes, if_pos (by simpa using hj), frame_eq_wireFrame]
    rwa [frame_length, ← hlen] at hf
  have hcode : decodeCode t.finish = .ok := hholds.decodeCode_eq_ok (by rwa [hparams])
  have hcap : t.finish.regs.len.toNat ≤ t.finish.params.bufBytes := by
    have := Params.bufBytes_ge hp
    rw [hlen, hparams]; omega
  obtain ⟨v, hdec, -, hv⟩ := Machine.decode_finish (by rw [hfin]; exact hi) hcap
  rw [if_pos hcode, hcode, if_neg (by omega), hholds.fcrc_eq, hholds.csum_eq] at hv
  exact ⟨t, v, hex, hdec, by rw [hv], hholds, hparams, by rw [hfin], by rw [hv]⟩

/-- The message types of ACK and HEARTBEAT are not that of DATA (R10, R76). -/
theorem Params.types_ne_data {p : Params} (h : p.wf = true) : p.mtAck ≠ p.mtData ∧ p.mtHeartbeat ≠ p.mtData := by
  simp only [Params.wf, Params.typesOk, Bool.and_eq_true, bne_iff_ne] at h
  obtain ⟨-, ⟨hack, hhb, -⟩, -⟩ := h
  exact ⟨hack.symm, hhb.symm⟩

/-- Settles O45: each encoder leaves a frame (`Encodes.decode_finish`) whose fields DECODE reads back, the payload for
DATA (`decodedRegs_eq_data`) and the header alone otherwise (`decodedRegs_eq_header`). -/
theorem encodeThenDecodeRecoversTheFields : Obligations.EncodeThenDecodeRecoversTheFields := by
  intro s hi hp
  obtain ⟨hack, hhb⟩ := Params.types_ne_data hp
  refine ⟨?_, ?_, ?_⟩
  · obtain ⟨t, v, hex, hdec, hok, hholds, hparams, hregs, hv⟩ :=
      (encData_encodes s).decode_finish hi hp (le_refl _) (fun _ => rfl)
    rw [← hparams] at hholds
    rw [hholds.decodedRegs_eq_data, hregs, hparams] at hv
    exact ⟨t, v, hex, hdec, hok, by rw [hv, hregs]; rfl⟩
  · obtain ⟨t, v, hex, hdec, hok, hholds, hparams, hregs, hv⟩ :=
      (encAck_encodes s).decode_finish hi hp (Nat.zero_le _) (fun e => absurd e hack)
    rw [hholds.decodedRegs_eq_header (by rwa [hparams]), hregs] at hv
    exact ⟨t, v, hex, hdec, hok, by rw [hv, hregs]; rfl⟩
  · obtain ⟨t, v, hex, hdec, hok, hholds, hparams, hregs, hv⟩ :=
      (encHb_encodes s).decode_finish hi hp (Nat.zero_le _) (fun e => absurd e hhb)
    rw [hholds.decodedRegs_eq_header (by rwa [hparams]), hregs] at hv
    exact ⟨t, v, hex, hdec, hok, by rw [hv, hregs]; rfl⟩

end Sys2Proof.Machine
end

section
/-! PROOFS of the statements about CLASSIFY: the verdict in exact arithmetic (O48), the two directions of the ring (O49)
and the replay (O50). -/

namespace Sys2Proof.Machine

/-! ## The ring distance and what CLASSIFY reports of it, in exact arithmetic (R125 to R128) -/

theorem ringDist_toNat (last s : Half) : (ringDist last s).toNat = (s.toNat + 65536 - last.toNat) % 65536 := by
  rw [ringDist, BitVec.toNat_sub']
  congr 1
  have := last.isLt
  omega

@[simp] theorem ringDist_self (s : Half) : ringDist s s = 0#16 := BitVec.sub_self s

/-- SEQ_RES as a number: the verdict stands above the sixteen bits of the distance (R31). -/
theorem seqResOf_toNat (d : Half) :
    (seqResOf d).toNat = (if 0 < d.toNat ∧ d.toNat < 32768 then 65536 else 0) + d.toNat := by
  rw [seqResOf, BitVec.toNat_append, ← Nat.shiftLeft_add_eq_or_of_lt d.isLt]
  by_cases h : isFresh d = true
  · rw [if_pos ((isFresh_iff d).1 h), h]
    rfl
  · rw [if_neg (mt (isFresh_iff d).2 h), eq_false_of_ne_true h]
    rfl

/-- SEQ_LOSS as a number: a Fresh distance is at least 1, so its `d - 1` does not wrap. -/
theorem seqLossOf_toNat (d : Half) :
    (seqLossOf d).toNat = if 0 < d.toNat ∧ d.toNat < 32768 then d.toNat - 1 else 0 := by
  rw [seqLossOf]
  by_cases h : isFresh d = true
  · have hd := (isFresh_iff d).1 h
    rw [if_pos h, if_pos hd, BitVec.toNat_sub_of_le (show 1#16 ≤ d from hd.1)]
    rfl
  · rw [if_neg h, if_neg (mt (isFresh_iff d).2 h)]
    rfl

/-! ## CLASSIFY run to its completion (R126) -/

/-- CLASSIFY checks no length (R138): from every idle state it is accepted, and writes SEQ_RES and SEQ_LOSS alone. -/
theorem classify_finish {s : State} (hi : s.eng = .idle) :
    ∃ t, exec .classify s = .next t ∧ t.busy = true ∧ t.finish = { s with
      cmd := 0x00000006#32
      regs := { s.regs with
        seqRes := seqResOf (ringDist s.regs.seqLast s.regs.seqIn)
        seqLoss := seqLossOf (ringDist s.regs.seqLast s.regs.seqIn) }
      result := .ok, lastOp := 0x06#8, done := true
      draws := s.draws + 1, latencies := s.latencies.tail } := by
  obtain ⟨t, hex, hbusy, hfin⟩ := exec_finish (i := .classify) hi nofun
  rw [commandResult, applyWrites_classify, ← hi, opField_encode] at hfin
  exact ⟨t, hex, hbusy, hfin⟩

/-- Settles O48: `classify_finish`, its two registers read as numbers. -/
theorem classifyReportsTheVerdict : Obligations.ClassifyReportsTheVerdict := by
  intro s d hi hd
  rw [← ringDist_toNat] at hd
  obtain ⟨t, hex, hbusy, hfin⟩ := classify_finish hi
  refine ⟨t, _, hex, hbusy, rfl, ?_, ?_, ?_⟩
  · rw [hfin, hd]
    exact seqResOf_toNat _
  · rw [hfin, hd]
    exact seqLossOf_toNat _
  · rw [hfin]

/-! ## The two directions of the ring (R131) -/

theorem ringDist_toNat_add {a b : Half} (h : a ≠ b) : (ringDist a b).toNat + (ringDist b a).toNat = 65536 := by
  have hne : a.toNat ≠ b.toNat := mt BitVec.eq_of_toNat_eq h
  rw [ringDist_toNat, ringDist_toNat]
  have := a.isLt
  have := b.isLt
  omega

/-- Settles O49: both distances are below 65536 and sum to it (`ringDist_toNat_add`), so one of them is below 32768
exactly when the other is above, and neither is when both are 32768. -/
theorem twoDirectionsOfTheRing : Obligations.TwoDirectionsOfTheRing := by
  intro a b h
  have hsum := ringDist_toNat_add h
  have hab := (ringDist a b).isLt
  have hba := (ringDist b a).isLt
  simp only [← Bool.not_eq_true, isFresh_iff]
  refine ⟨hsum, ?_, ?_⟩ <;> omega

/-! ## A replay (R132) -/

/-- Settles O50: with SEQ_LAST set to SEQ_IN the distance is 0 (`ringDist_self`), which is Stale. That the first verdict
was Fresh is the spec's occasion to set SEQ_LAST and is not needed. -/
theorem replayIsStale : Obligations.ReplayIsStale := by
  intro s t hi hex _
  obtain ⟨t', hex', -, hfin⟩ := classify_finish hi
  cases hex.symm.trans hex'
  obtain ⟨v, hv, -, hreplay⟩ :=
    classify_finish (s := t.finish.setReg .seqLast (s.regs.seqIn.setWidth 32)) (by rw [hfin]; exact hi)
  have hlast : (t.finish.setReg .seqLast (s.regs.seqIn.setWidth 32)).regs.seqLast =
      (t.finish.setReg .seqLast (s.regs.seqIn.setWidth 32)).regs.seqIn := by
    rw [hfin]
    exact setWidth16_32 _
  rw [hlast, ringDist_self] at hreplay
  exact ⟨v, hv, by rw [hreplay]; rfl, by rw [hreplay]; rfl⟩

end Sys2Proof.Machine
end

section
/-! PROOFS of the statements about errors, completion and the interrupt (O17, O23, O25, O27 to O30). -/

namespace Sys2Proof.Machine

/-! ## Nothing stops the block (R135) -/

theorem exec_next (i : Instr) (s : State) : ∃ t, exec i s = .next t := by
  rcases exec_cases i s with ⟨-, h⟩ | ⟨-, -, -, h⟩ | ⟨-, -, h⟩ <;> exact ⟨_, h⟩

theorem writeIdle_next (t : Target) (d : Word) (s : State) : ∃ u, writeIdle t d s = .next u := by
  rcases t with (_ | _ | _ | _ | r) | k
  case reg.cmd =>
    cases hd : decodeWord d with
    | error e => exact ⟨s.reject d .illegalCmd, by simp only [writeIdle, hd]⟩
    | ok i => simpa only [writeIdle, hd] using exec_next i s
  all_goals exact ⟨_, rfl⟩

theorem writeTarget_next (t : Target) (d : Word) (s : State) : ∃ u, writeTarget t d s = .next u := by
  by_cases ht : t = .reg .ctrl
  · exact ⟨_, ht ▸ writeTarget_ctrl d s⟩
  · by_cases hb : s.busy = true
    · exact ⟨_, writeTarget_busy ht hb⟩
    · rw [writeTarget_idle (by simpa using hb)]
      exact writeIdle_next t d s

theorem hostWrite_next (a : Half) (d : Word) (s : State) : ∃ u, hostWrite a d s = .next u := by
  cases ht : addrTarget s.params a with
  | none => exact ⟨_, hostWrite_unmapped d ht⟩
  | some t =>
    rw [hostWrite_mapped d ht]
    exact writeTarget_next t d _

theorem step_next (s : State) : ∃ t, step s = .next t := by
  cases h : s.inputs with
  | nil => exact ⟨_, step_nil h⟩
  | cons e rest =>
    cases e with
    | read a => exact ⟨_, step_read h⟩
    | write a d =>
      rw [step_write h]
      exact hostWrite_next a d _
    | engine => exact ⟨_, step_engine h⟩
    | hwReset => exact ⟨_, step_hwReset h⟩
    | wait => exact ⟨_, step_wait h⟩

/-- Settles O27: of all parts of a step only a write can run a command, and every command answers (`exec_cases`). -/
theorem nothingStopsTheBlock : Obligations.NothingStopsTheBlock :=
  fun s => ⟨step_next s, fun i => exec_next i s⟩

/-! ## Accesses while BUSY (R139) -/

/-- `step_write_reg` for any mapped address: the access is taken off the list and answered OKAY, and the rest is the
write to what the address names (R140). -/
theorem step_write_mapped {s : State} {a : Half} {d : Word} {t : Target} {rest : List Event}
    (h : s.inputs = .write a d :: rest) (ht : addrTarget s.params a = some t) :
    step s = writeTarget t d { s with inputs := rest, response := some (.write .okay) } := by
  rw [step_write h, hostWrite_mapped d (by exact ht), State.popInput_eq h]
  rfl

/-- A read of a mapped address answers OKAY, in any engine state (R51, R161). -/
theorem hostRead_response {a : Half} {s : State} {t : Target} (h : addrTarget s.params a = some t) :
    ∃ d, (hostRead a s).response = some (.read .okay d) := by
  cases hf : s.inFlight t with
  | true => exact ⟨_, by rw [hostRead_inFlight h hf]⟩
  | false => exact ⟨_, by rw [hostRead_mapped h hf]; rfl⟩

/-- Settles O17, by what the write to a target does while BUSY. -/
theorem busyWritesOnlySetWerr : Obligations.BusyWritesOnlySetWerr := by
  intro s p n a t rest he ht
  refine ⟨fun d hin hc => ?_, fun d hin hc => ?_, fun hin => ?_⟩
  · rw [step_write_mapped hin ht, writeTarget_busy hc (by exact s.busy_of_eng he)]
    rfl
  · rw [step_write_mapped hin ht, hc, writeTarget_ctrl]
  · obtain ⟨d, hd⟩ := hostRead_response (s := s.popInput) ht
    exact ⟨_, d, step_read hin, hd⟩

/-! ## A word written to CMD while idle (R138) -/

theorem checksLen_iff (i : Instr) :
    Instr.checksLen i = true ↔ opField (encode i) = 0x01#8 ∨ opField (encode i) = 0x05#8 := by
  rw [opField_encode]
  cases i with
  | crc z => simp [Instr.checksLen, Instr.op]
  | _ => decide

/-- The write of a legal word to CMD is the command it stands for (R88, R140). -/
theorem step_legal_cmd {s : State} {w : Word} {rest : List Event} (hin : s.inputs = .write 0x0008#16 w :: rest)
    (hw : ¬ illegalWord w) :
    ∃ i, w = encode i ∧ step s = exec i { s with inputs := rest, response := some (.write .okay) } := by
  cases hd : decodeWord w with
  | ok i => exact ⟨i, eq_encode_of_decodeWord hd, stepRunsTheDecodedCommand s w i rest hin hd⟩
  | error e => exact absurd (illegalWord_of_decodeWord_error hd) hw

/-- Settles O23: an illegal word by `illegalWordIsRejected`; a legal one is a command's (`step_legal_cmd`), and that
command checks LEN exactly with the two opcodes named (`checksLen_iff`). -/
theorem cmdWriteIsRejectedOrAccepted : Obligations.CmdWriteIsRejectedOrAccepted := by
  intro s w rest hi hin
  refine ⟨illegalWordIsRejected s w rest hi hin, fun hw hop hl => ?_, fun hw hlen => ?_⟩
  · obtain ⟨i, rfl, hstep⟩ := step_legal_cmd hin hw
    exact hstep.trans (exec_lenRange hi ((checksLen_iff i).2 hop) hl)
  · obtain ⟨i, rfl, hstep⟩ := step_legal_cmd hin hw
    have hl : Instr.checksLen i = true → s.regs.len.toNat ≤ s.params.bufBytes :=
      fun hc => not_lt.1 fun hl => hlen ⟨(checksLen_iff i).1 hc, hl⟩
    exact ⟨_, hstep.trans (exec_accept hi hl), rfl, rfl, rfl, rfl, rfl, rfl, rfl, rfl⟩

/-! ## The completion event (R137) -/

/-- A register that writes name, all with one value, holds that value. -/
theorem State.applyWrites_get_of_mem (ws : List EngWrite) (s : State) {r : DataReg} {v : Word}
    (h : EngWrite.reg r v ∈ ws) (hv : ∀ v', EngWrite.reg r v' ∈ ws → v' = v) :
    ((s.applyWrites ws).regs.get r).toNat = v.toNat % 2 ^ r.width := by
  induction ws generalizing s with
  | nil => cases h
  | cons w ws ih =>
    rw [State.applyWrites_cons]
    have hvs : ∀ v', EngWrite.reg r v' ∈ ws → v' = v := fun v' h' => hv v' (List.mem_cons_of_mem _ h')
    by_cases hmem : EngWrite.reg r v ∈ ws
    · exact ih _ hmem hvs
    · obtain rfl : EngWrite.reg r v = w := (List.mem_cons.1 h).resolve_right hmem
      rw [State.applyWrites_get_of_not_mem ws _ r fun v' h' => hmem (hvs v' h' ▸ h')]
      exact s.regs.get_set_toNat r v

/-- A byte that writes name, all with one value, holds that value. -/
theorem State.applyWrites_bufByte_of_mem (ws : List EngWrite) (s : State) {i : Nat} {b : Byte}
    (h : EngWrite.buf i b ∈ ws) (hb : ∀ b', EngWrite.buf i b' ∈ ws → b' = b) :
    (s.applyWrites ws).bufByte i = b := by
  induction ws generalizing s with
  | nil => cases h
  | cons w ws ih =>
    rw [State.applyWrites_cons]
    have hbs : ∀ b', EngWrite.buf i b' ∈ ws → b' = b := fun b' h' => hb b' (List.mem_cons_of_mem _ h')
    by_cases hmem : EngWrite.buf i b ∈ ws
    · exact ih _ hmem hbs
    · obtain rfl : EngWrite.buf i b = w := (List.mem_cons.1 h).resolve_right hmem
      rw [State.applyWrites_bufByte_of_not_mem ws _ i fun b' h' => hmem (hbs b' h' ▸ h')]
      exact (s.bufByte_setBuf i i b).trans (if_pos rfl)

/-- What a completion leaves: registers and BUF are those of the writes applied, RESULT, LAST_OP, DONE and the engine
are as reported, and everything else is as before. -/
theorem State.complete_frame {s : State} {p : Pending} {n : Nat} (h : s.eng = .busy p n) :
    s.complete = { s with
      regs := s.complete.regs, buf := s.complete.buf, result := p.res.code
      lastOp := opField (encode p.instr), done := true, eng := .idle } := by
  rw [State.complete_of_eng s h]
  simp

/-- Settles O25: the step is the completion, whose registers and bytes are those of the writes applied. -/
theorem completionAppliesThePendingResult : Obligations.CompletionAppliesThePendingResult := by
  intro s p rest he hin
  have hstep : step s = .next (State.complete { s with inputs := rest }) := by
    rw [step_engine hin, State.popInput_eq hin, State.engineTick_last (by exact he) (le_refl 1)]
  obtain ⟨hregs, hbuf, -⟩ := State.complete_of_pending he rest
  refine ⟨_, hstep, fun r v hr hv => ?_, fun r hr => ?_, fun i b hb hu => ?_, fun i hb => ?_,
    State.busy_of_idle _ (State.complete_eng _), State.complete_frame (by exact he)⟩
  · rw [State.readReg, hregs]
    exact State.applyWrites_get_of_mem _ s hr hv
  · rw [State.readReg, hregs]
    exact State.applyWrites_get_of_not_mem _ s r hr
  · rw [hbuf]
    exact State.applyWrites_bufByte_of_mem _ s hb hu
  · rw [hbuf]
    exact State.applyWrites_bufByte_of_not_mem _ s i hb

/-! ## The host and the command in flight (R139) -/

/-- The event, met while BUSY, is a write that is ignored and sets WERR: to a mapped address other than CTRL's. -/
def Event.setsWerr (p : Params) : Event → Bool
  | .write a _ => a != 0x0000#16 && (addrTarget p a).isSome
  | .read _ | .engine | .hwReset | .wait => false

/-- The block after host accesses while BUSY and no reset: only IE, the response, the count of draws, WERR and the
events to come may differ, and, after engine steps, the latency left. -/
def State.accessed (s : State) (ie werr : Bool) (e : Eng) (rs : Option BusResponse) (k : Nat) (ins : List Event) :
    State :=
  { s with ie := ie, werr := werr, eng := e, response := rs, draws := k, inputs := ins }

/-- The completion of a command in flight does not depend on any of those, and keeps them but the latency. -/
theorem State.complete_accessed {s : State} {p : Pending} {n m : Nat} (h : s.eng = .busy p n) (ie werr : Bool)
    (rs : Option BusResponse) (k : Nat) (ins : List Event) :
    (s.accessed ie werr (.busy p m) rs k ins).complete = s.complete.accessed ie werr .idle rs k ins := by
  have hw := State.applyWrites_congr (s := s) (t := s.accessed ie werr (.busy p m) rs k ins) rfl rfl p.res.writes
  rw [State.complete_of_eng s h, State.complete_of_eng _ (by rfl)]
  unfold State.accessed at hw ⊢
  simp [hw]

/-- What a read, or a write that does not reset, does while BUSY. -/
theorem step_access_busy {s : State} {p : Pending} {n : Nat} {e : Event} {rest : List Event} (he : s.eng = .busy p n)
    (hin : s.inputs = e :: rest) (hr : e.isReset = false) (hw : e.isWait = false) (hn : e.isEngine = false) :
    ∃ ie rs k, step s = .next (s.accessed ie (s.werr || e.setsWerr s.params) (.busy p n) rs k rest) := by
  rw [← he]
  cases e with
  | read a =>
    obtain ⟨⟨r, k, h⟩, -⟩ := readChangesNothing s a rest hin
    exact ⟨s.ie, some r, k, by simp [h, Event.setsWerr, State.accessed]⟩
  | write a d =>
    cases ht : addrTarget s.params a with
    | none =>
      have h := (unmappedAccessGetsError s a rest (.inr ht)).2 d hin
      exact ⟨s.ie, some (.write .error), s.draws, by simp [h, Event.setsWerr, ht, State.accessed]⟩
    | some t =>
      by_cases hc : a = 0x0000#16
      · subst hc
        have h := (ctrlWriteSetsIeOrResets.1 s d rest hin).1 (by simpa [Event.isReset] using hr)
        exact ⟨d.getLsbD 1, some (.write .okay), s.draws, by simp [h, Event.setsWerr, State.accessed]⟩
      · have hne : t ≠ .reg .ctrl := fun h => hc (addrTarget_ctrl_iff.1 (h ▸ ht))
        have h := (busyWritesOnlySetWerr s p n a t rest he ht).1 d hin hne
        exact ⟨s.ie, some (.write .okay), s.draws, by simp [h, Event.setsWerr, ht, hc, State.accessed]⟩
  | engine => cases hn
  | hwReset => cases hr
  | wait => cases hw

/-- An event while BUSY that is no reset, no WAIT and not the last engine step: of the command in flight only the
latency left may fall, by an engine step. -/
theorem step_busy {s : State} {p : Pending} {n : Nat} {e : Event} {rest : List Event}
    (he : s.eng = .busy p (n + (if e.isEngine then 1 else 0) + 1)) (hin : s.inputs = e :: rest)
    (hr : e.isReset = false) (hw : e.isWait = false) :
    ∃ ie rs k, step s = .next (s.accessed ie (s.werr || e.setsWerr s.params) (.busy p (n + 1)) rs k rest) := by
  cases hn : e.isEngine with
  | false =>
    rw [hn] at he
    exact step_access_busy he hin hr hw hn
  | true =>
    cases e with
    | engine =>
      refine ⟨s.ie, s.response, s.draws, ?_⟩
      rw [step_engine hin, State.popInput_eq hin, State.engineTick_more (by exact he)]
      simp [Event.setsWerr, State.accessed]
    | _ => cases hn

/-- Accesses while BUSY and engine steps up to and with the completing one, whatever their order, end in the completed
state. -/
theorem run_busy {p : Pending} {rest : List Event} (evs : List Event) (s : State)
    (he : s.eng = .busy p (evs.countP Event.isEngine + 1)) (hin : s.inputs = evs ++ .engine :: rest)
    (hev : ∀ e ∈ evs, e.isReset = false ∧ e.isWait = false) :
    ∃ ie rs k, Host.Core.run Sys2Proof.core (evs.length + 1) s =
      .next (s.complete.accessed ie (s.werr || evs.any (Event.setsWerr s.params)) .idle rs k rest) := by
  induction evs generalizing s with
  | nil =>
    have hlast : s.popInput.engineTick = (s.accessed s.ie s.werr (.busy p 1) s.response s.draws rest).complete := by
      rw [State.engineTick_last (by exact he) (le_refl 1), State.popInput_eq hin]
      exact congrArg State.complete (by rw [← show s.eng = .busy p 1 from he]; rfl)
    refine ⟨s.ie, s.response, s.draws, run_step (step_engine hin) ?_⟩
    rw [hlast, State.complete_accessed he, List.any_nil, Bool.or_false]
    rfl
  | cons e evs ih =>
    obtain ⟨⟨hr, hw⟩, hev⟩ := List.forall_mem_cons.1 hev
    rw [List.countP_cons] at he
    obtain ⟨ie, rs, k, hstep⟩ := step_busy he hin hr hw
    obtain ⟨ie', rs', k', hrun⟩ := ih (s.accessed ie _ _ rs k (evs ++ .engine :: rest)) rfl rfl hev
    refine ⟨ie', rs', k', run_step hstep (hrun.trans ?_)⟩
    rw [State.complete_accessed he, List.any_cons, ← Bool.or_assoc]
    rfl

@[simp] theorem State.complete_bufSeed (s : State) : s.complete.bufSeed = s.bufSeed := by
  cases h : s.eng <;> simp [State.complete, h]

theorem State.complete_result {s : State} {p : Pending} {n : Nat} (h : s.eng = .busy p n) :
    s.complete.result = p.res.code := by
  rw [State.complete_of_eng s h]

/-- An event that sets WERR is a mapped write other than to CTRL. -/
theorem any_setsWerr_iff {p : Params} {evs : List Event} : evs.any (Event.setsWerr p) = true ↔
    ∃ a d, Event.write a d ∈ evs ∧ a ≠ 0x0000#16 ∧ addrTarget p a ≠ none := by
  rw [List.any_eq_true]
  constructor
  · rintro ⟨e, hmem, he⟩
    cases e with
    | write a d => exact ⟨a, d, hmem, by simpa [Event.setsWerr, Option.isSome_iff_ne_none] using he⟩
    | _ => cases he
  · rintro ⟨a, d, hmem, hd⟩
    exact ⟨_, hmem, by simpa [Event.setsWerr, Option.isSome_iff_ne_none] using hd⟩

/-- Settles O28: `run_busy`, its state read field by field. -/
theorem hostCannotDisturbTheCommandInFlight : Obligations.HostCannotDisturbTheCommandInFlight := by
  intro s p n evs rest he hin hev hn
  rw [← hn, ← List.countP_eq_length_filter] at he
  obtain ⟨ie, rs, k, hrun⟩ := run_busy evs s he hin hev
  refine ⟨_, hrun, rfl, rfl, rfl, rfl, s.complete_bufSeed, s.complete_params, State.complete_result he,
    State.complete_lastOp he, State.complete_done he, s.complete_cmd, ?_⟩
  change (s.werr || evs.any (Event.setsWerr s.params)) = true ↔ _
  rw [Bool.or_eq_true, any_setsWerr_iff]

/-! ## IRQ and DONE (R142, R143) -/

theorem State.irq_eq_true_iff (s : State) : s.irq = true ↔ s.ie = true ∧ s.done = true := Bool.and_eq_true_iff

theorem State.irq_of_done_false {s : State} (h : s.done = false) : s.irq = false := by simp [State.irq, h]

theorem State.irq_of_ie_false {s : State} (h : s.ie = false) : s.irq = false := by simp [State.irq, h]

/-- The two kinds of reset (R155). -/
theorem State.inputs_of_resetsNext {s : State} (h : s.resetsNext = true) :
    ∃ rest, s.inputs = .hwReset :: rest ∨ ∃ d : Word, d.getLsbD 0 = true ∧ s.inputs = .write 0x0000#16 d :: rest := by
  unfold State.resetsNext at h
  split at h
  · cases h
  · next e rest hin =>
    refine ⟨rest, ?_⟩
    cases e with
    | hwReset => exact .inl hin
    | write a d =>
      obtain ⟨ha, hd⟩ : a = 0x0000#16 ∧ d.getLsbD 0 = true := by simpa [Event.isReset] using h
      exact .inr ⟨d, hd, ha ▸ hin⟩
    | _ => cases h

theorem irq_of_resetsNext {s t : State} (h : step s = .next t) (hr : s.resetsNext = true) : t.irq = false := by
  obtain ⟨rest, hin⟩ := State.inputs_of_resetsNext hr
  obtain ⟨u, hu, -, -, -, hirq, -⟩ := resetEventSetsEveryRegister s rest hin
  cases h.symm.trans hu
  exact hirq

/-- A write to CMD that leaves the engine BUSY, coming from idle, was accepted and cleared DONE (R160): a rejection
leaves the engine idle. -/
theorem done_of_accepted {s t : State} {w : Word} {rest : List Event} (h : step s = .next t)
    (hin : s.inputs = .write 0x0008#16 w :: rest) (hs : s.busy = false) (ht : t.busy = true) : t.done = false := by
  obtain ⟨hill, hlen, hacc⟩ := cmdWriteIsRejectedOrAccepted s w rest (s.busy_eq_false_iff.1 hs) hin
  by_cases hw : illegalWord w
  · cases h.symm.trans (hill hw)
    cases hs.symm.trans ht
  · by_cases hl : (opField w = 0x01#8 ∨ opField w = 0x05#8) ∧ s.params.bufBytes < s.regs.len.toNat
    · cases h.symm.trans (hlen hw hl.1 hl.2)
      cases hs.symm.trans ht
    · obtain ⟨u, hu, -, -, hdone, -⟩ := hacc hw hl
      cases h.symm.trans hu
      exact hdone

/-- Settles O29: each of the four events leaves DONE or IE 0. -/
theorem irqIsALevel : Obligations.IrqIsALevel := by
  refine ⟨State.irq_eq_true_iff, fun s t d rest h => ⟨fun hi hin hd => ?_, fun hin hs ht => ?_, fun hin hd => ?_,
    irq_of_resetsNext h⟩⟩
  · cases h.symm.trans (statusWordAndWriteOneToClear.2 s d rest hi hin)
    exact State.irq_of_done_false (by simp only [hd, Bool.not_true, Bool.and_false])
  · exact State.irq_of_done_false (done_of_accepted h hin hs ht)
  · cases hr : d.getLsbD 0 with
    | true => exact irq_of_resetsNext h (by simp [State.resetsNext, hin, Event.isReset, hr])
    | false =>
      cases h.symm.trans ((ctrlWriteSetsIeOrResets.1 s d rest hin).1 hr)
      exact State.irq_of_ie_false hd

/-- DONE rises by a completion or by a rejection (R24). -/
theorem StepEffect.of_done_set {s t : State} (h : StepEffect s t) (h0 : s.done = false) (h1 : t.done = true) :
    (∃ i, s.completesNext i) ∨
    (s.eng = .idle ∧ t.eng = .idle ∧ (t.result = .illegalCmd ∨ t.result = .lenRange) ∧
      ∃ w rest, s.inputs = .write 0x0008#16 w :: rest ∧ t.cmd = w) := by
  have hne : t.done ≠ s.done := by simp [h0, h1]
  cases h with
  | complete i _ _ _ hc => exact .inl ⟨i, hc⟩
  | reset => cases h1
  | idle a d tg rs rest _ hi hin ht he =>
    cases he with
    | clear => simp [h0] at h1
    | illegal hcmd => exact .inr ⟨hi, hi, .inl rfl, d, rest, State.inputs_of_addrTarget hin ht hcmd, rfl⟩
    | lenRange hcmd i hd =>
      exact .inr ⟨hi, hi, .inr rfl, d, rest, State.inputs_of_addrTarget hin ht hcmd, (eq_encode_of_decodeWord hd).symm⟩
    | accept => cases h1
    | _ => exact absurd rfl hne
  | _ => exact absurd rfl hne

/-- IE rises by a write to CTRL that sets it and does not reset (R23). -/
theorem StepEffect.of_ie_set {s t : State} (h : StepEffect s t) (hr : s.resetsNext = false) (h0 : s.ie = false)
    (h1 : t.ie = true) :
    ∃ d rest, s.inputs = .write 0x0000#16 d :: rest ∧ d.getLsbD 1 = true ∧ d.getLsbD 0 = false := by
  obtain ⟨d, rest, hin, hie⟩ := h.of_ie_ne hr (by simp [h0, h1])
  exact ⟨d, rest, hin, hie.symm.trans h1, by simpa [State.resetsNext, hin, Event.isReset] using hr⟩

/-- Settles O30: where IRQ rises and DONE was 1 already, IE rises, and no reset raises IRQ. -/
theorem doneAndIrqRiseOnlyByTheirCauses : Obligations.DoneAndIrqRiseOnlyByTheirCauses := by
  intro s t h
  refine ⟨(step_effect h).of_done_set, fun h0 h1 => ?_⟩
  obtain ⟨hie, hdone⟩ := t.irq_eq_true_iff.1 h1
  cases hs : s.done with
  | false => exact .inl ⟨rfl, hdone⟩
  | true =>
    have hr : s.resetsNext = false := Bool.eq_false_iff.2 fun hr => by
      cases h1.symm.trans (irq_of_resetsNext h hr)
    have hs0 : s.ie = false := Bool.eq_false_iff.2 fun hi => by
      cases h0.symm.trans (s.irq_eq_true_iff.2 ⟨hi, hs⟩)
    exact .inr ((step_effect h).of_ie_set hr hs0 hie)

end Sys2Proof.Machine
end

section
/-! PROOFS of the statements about hazards and the command in flight (O13, O24, O26, O47). -/

namespace Sys2Proof.Machine

/-! ## Reads while BUSY and the write sets (R161) -/

theorem State.inFlight_of_eng {s : State} {p : Pending} {n : Nat} (h : s.eng = .busy p n) (t : Target) :
    s.inFlight t = Instr.writesTarget p.instr t := by
  simp [State.inFlight, h]

/-- A read of the write set of the command in flight answers a draw, and the count of draws goes up. -/
theorem step_read_inFlight {s : State} {a : Half} {t : Target} {rest : List Event} (h : s.inputs = .read a :: rest)
    (ht : addrTarget s.params a = some t) (hf : s.inFlight t = true) :
    step s = .next { s with
      inputs := rest, response := some (.read .okay (Config.readDraw s.draws)), draws := s.draws + 1 } := by
  rw [step_read h, hostRead_inFlight (s := s.popInput) ht hf, State.popInput_eq h]

/-- A write set holds operand, result and field registers and the words of its part of BUF, and nothing else. -/
theorem writesTarget_iff {i : Instr} {t : Target} : Instr.writesTarget i t = true ↔
    (∃ r, Instr.writesReg i r = true ∧ t = .reg (.data r)) ∨ ∃ k, 4 * k < Instr.writesBuf i ∧ t = .window k := by
  rcases t with (_ | _ | _ | _ | r) | k
  case reg.data => simp [Instr.writesTarget]
  case window => simp [writesTarget_window]
  all_goals simp [Instr.writesTarget]

theorem writesTarget_crc_iff {z : Bool} {t : Target} :
    Instr.writesTarget (.crc z) t = true ↔ t = .reg (.data .crcOut) := by
  simp [writesTarget_iff, Instr.writesReg, Instr.writesBuf]

theorem writesTarget_decode_iff {t : Target} : Instr.writesTarget .decode t = true ↔
    t = .reg (.data .crcOut) ∨ ∃ r, r ∈ fieldRegs ∧ t = .reg (.data r) := by
  have hreg : ∀ r, Instr.writesReg .decode r = true ↔ r = .crcOut ∨ r ∈ fieldRegs := by
    intro r
    cases r <;> decide
  simp [writesTarget_iff, hreg, Instr.writesBuf, or_and_right, exists_or]

/-- The write set of an encoder: LEN, CRC_OUT and the window words up to the one with the frame's last two bytes. -/
theorem writesTarget_encoder_iff {i : Instr} {n : Nat} (he : (i, 4 * n + 2) ∈ encoders) {t : Target} :
    Instr.writesTarget i t = true ↔
      t = .reg (.data .len) ∨ t = .reg (.data .crcOut) ∨ ∃ k, k ≤ n ∧ t = .window k := by
  have hset : (∀ r, Instr.writesReg i r = (r == .len || r == .crcOut)) ∧ Instr.writesBuf i = 4 * n + 2 := by
    simp only [encoders, List.mem_cons, List.not_mem_nil, or_false, Prod.mk.injEq] at he
    rcases he with ⟨rfl, hn⟩ | ⟨rfl, hn⟩ | ⟨rfl, hn⟩ <;> exact ⟨fun _ => rfl, hn.symm⟩
  obtain ⟨hreg, hbuf⟩ := hset
  have hword (k : Nat) : 4 * k < 4 * n + 2 ↔ k ≤ n := by omega
  simp [writesTarget_iff, hreg, hbuf, hword, or_and_right, exists_or, or_assoc]

theorem writesTarget_classify_iff {t : Target} : Instr.writesTarget .classify t = true ↔
    t = .reg (.data .seqRes) ∨ t = .reg (.data .seqLoss) := by
  simp [writesTarget_iff, Instr.writesReg, Instr.writesBuf, or_and_right, exists_or]

/-- Settles O13: `step_read_inFlight` in the write set, `step_read_mapped` outside it; the write sets command by
command, the encoders' ending at window word 7 or 2. -/
theorem busyReadOfWriteSetIsADraw : Obligations.BusyReadOfWriteSetIsADraw := by
  refine ⟨fun s a t p n rest hin ht he => ?_, fun _ _ => writesTarget_crc_iff,
    fun _ => writesTarget_encoder_iff (n := 7) (by decide), fun i hi _ => writesTarget_encoder_iff (n := 2) ?_,
    fun _ => writesTarget_decode_iff, fun _ => writesTarget_classify_iff⟩
  · rw [← State.inFlight_of_eng he]
    split
    · next hf => exact step_read_inFlight hin ht hf
    · next hf => exact step_read_mapped hin ht (Bool.eq_false_iff.2 hf)
  · rcases hi with rfl | rfl <;> decide

/-! ## Engine steps of the command in flight (R160) -/

/-- Engine steps short of the completion only take from the latency left. -/
theorem State.engineTicks_of_lt {p : Pending} {k : Nat} (m : Nat) (s : State) (h : s.eng = .busy p (m + k + 1)) :
    State.engineTicks m s = { s with eng := .busy p (k + 1) } := by
  induction m generalizing s with
  | zero =>
    rw [Nat.zero_add] at h
    rw [← h]
    rfl
  | succ m ih =>
    have hmore : s.eng = .busy p (m + k + 2) := by rw [h]; congr 1; omega
    rw [State.engineTicks, State.engineTick_more hmore, ih _ rfl]

/-- `State.finish_of_eng`, the number of engine steps written out. -/
theorem State.engineTicks_of_eng {s : State} {p : Pending} {n : Nat} (h : s.eng = .busy p (n + 1)) :
    State.engineTicks (n + 1) s = s.complete := by
  rw [← State.finish_of_eng h, State.finish, State.remaining_of_eng s h]

theorem State.nextLatency_of_drawn {s : State} {m : Nat} {ls : List Nat} (h : s.latencies = m :: ls) :
    s.nextLatency = m := by
  simp [State.nextLatency, h]

/-- The write of a command's word to CMD while idle, LEN in range if the command checks it: acceptance, the rule
applied to the state before the write (R14, R160). -/
theorem step_accept {s : State} {i : Instr} {rest : List Event} (hi : s.eng = .idle)
    (hin : s.inputs = .write 0x0008#16 (encode i) :: rest)
    (hl : Instr.checksLen i = true → s.regs.len.toNat ≤ s.params.bufBytes) :
    step s = .next (State.accept { s with inputs := rest, response := some (.write .okay) } i (commandResult i s)) := by
  have hrule : commandResult i { s with inputs := rest, response := some (.write .okay) } = commandResult i s := by
    apply commandResult_congr <;> rfl
  rw [← hrule]
  exact (stepRunsTheDecodedCommand s _ i rest hin (decodeWord_encode i)).trans (exec_accept hi hl)

/-- Settles O24: the step is `step_accept`, which leaves `nextLatency + 1` engine steps. -/
theorem acceptedCommandHoldsItsPendingResult : Obligations.AcceptedCommandHoldsItsPendingResult := by
  intro s i rest hi hin hl
  refine ⟨s.nextLatency, _, step_accept hi hin hl, rfl, fun m ls h => State.nextLatency_of_drawn h, fun m hm => ?_,
    State.engineTicks_of_eng rfl, State.busy_of_idle _ (State.complete_eng _)⟩
  obtain ⟨k, hk⟩ := Nat.exists_eq_add_of_le hm
  rw [State.engineTicks_of_lt (k := k) m _ (by rw [← hk]; rfl)]
  rfl

/-! ## A run with no events to come (log 2) -/

@[simp] theorem State.complete_inputs (s : State) : s.complete.inputs = s.inputs := by
  cases h : s.eng <;> simp [State.complete, h]

@[simp] theorem State.engineTick_inputs (s : State) : s.engineTick.inputs = s.inputs := by
  rcases s.engineTick_cases with ⟨-, e⟩ | ⟨p, n, -, e⟩ | ⟨p, n, -, -, e⟩ <;> simp [e]

/-- With no event to come every step of a run is an engine step. -/
theorem run_eq_engineTicks (k : Nat) (s : State) (hin : s.inputs = []) :
    Host.Core.run Sys2Proof.core k s = .next (State.engineTicks k s) := by
  induction k generalizing s with
  | zero => rfl
  | succ k ih => exact run_step (step_nil hin) (ih _ (by rwa [State.engineTick_inputs]))

/-- Settles O26: the run is all the engine steps of the command in flight. -/
theorem commandInFlightCompletes : Obligations.CommandInFlightCompletes := by
  intro s p n he hin
  rw [run_eq_engineTicks _ s hin, State.engineTicks_of_eng he]

/-! ## ENC_ACK after DECODE (R165) -/

/-- A command that leaves an idle engine BUSY was accepted, so LEN was in range if it checks LEN (R138). -/
theorem len_le_of_exec_busy {i : Instr} {s t : State} (hi : s.eng = .idle) (hex : exec i s = .next t)
    (hb : t.busy = true) (hc : Instr.checksLen i = true) : s.regs.len.toNat ≤ s.params.bufBytes := by
  by_contra hl
  cases hex.symm.trans (exec_lenRange hi hc (not_le.1 hl))
  cases hb.symm.trans (State.busy_of_idle _ hi)

theorem decodedRegs_devid_seq (s : State) :
    (decodedRegs s).fldDevid = s.buf16 2 ∧ (decodedRegs s).fldSeq = s.buf16 4 := by
  unfold decodedRegs
  split <;> exact ⟨rfl, rfl⟩

/-- A DECODE that reports OK leaves the received device id and sequence number in their field registers (R112), and the
engine idle. -/
theorem decode_ok_devid_seq {s t : State} (hi : s.eng = .idle) (hex : exec .decode s = .next t)
    (hok : t.finish.result = .ok) (hb : t.busy = true) :
    t.finish.eng = .idle ∧ t.finish.params = s.params ∧
      t.finish.regs.fldDevid = s.buf16 2 ∧ t.finish.regs.fldSeq = s.buf16 4 := by
  obtain ⟨u, hu, -, hfin⟩ := decode_finish hi (len_le_of_exec_busy hi hex hb rfl)
  cases hex.symm.trans hu
  have hcode : decodeCode s = .ok := by rwa [hfin] at hok
  rw [if_pos hcode] at hfin
  rw [hfin]
  exact ⟨hi, rfl, decodedRegs_devid_seq s⟩

/-- The two bytes of a 16-bit field of BUF. -/
theorem State.hi8_lo8_buf16 (s : State) (i : Nat) :
    hi8 (s.buf16 i) = s.bufByte i ∧ lo8 (s.buf16 i) = s.bufByte (i + 1) := hi8_lo8_append _ _

/-- Settles O47: DECODE leaves the received device id and sequence number in the field registers, from which ENC_ACK
builds its header. -/
theorem ackAfterDecodeEchoes : Obligations.AckAfterDecodeEchoes := by
  intro s t hi hex hok hb
  obtain ⟨hidle, hparams, hdev, hseq⟩ := decode_ok_devid_seq hi hex hok hb
  obtain ⟨v, hv, -, hbytes, -⟩ := (encAck_encodes t.finish).finish hidle
  rw [hdev, hseq, hparams] at hbytes
  refine ⟨v, hv, fun i h2 h6 => ?_, hbytes 1⟩
  obtain ⟨hi2, lo2⟩ := s.hi8_lo8_buf16 2
  obtain ⟨hi4, lo4⟩ := s.hi8_lo8_buf16 4
  interval_cases i
  · exact (hbytes 2).trans hi2
  · exact (hbytes 3).trans lo2
  · exact (hbytes 4).trans hi4
  · exact (hbytes 5).trans lo4

end Sys2Proof.Machine
end
